-- ==== Sys2Proof/Word.lean ====
section
/-! DEFINITION. The byte: the one width of data, operand and opcode (00_scope.md R6, 20_memory.md R54). -/

namespace Sys2Proof

/-- A byte: a register's value, a memory cell's content, an opcode or an operand (10_state.md R20, 00_scope.md R8). -/
abbrev Byte := BitVec 8

end Sys2Proof
end

