-- ==== Sys2Proof/Syntax.lean ====
section
/-! DEFINITION. The instructions of the opcode table (30_encoding.md R80), one constructor a row, and the names of their
formats and operand kinds. An operand is the byte the instruction carries: decode accepts every value of every operand byte
(30_encoding.md R85), and the range of a register id is checked when the instruction executes (10_state.md R21). -/

namespace Sys2Proof

/-- A register operand as encoded; it names `x[v]` when `v ≤ 3` (10_state.md R21). -/
abbrev RegId := Byte
/-- A literal operand, zero-extended when used (30_encoding.md R72). -/
abbrev Literal := Byte
/-- A direct address operand, zero-extended when used (30_encoding.md R72). -/
abbrev Address := Byte
/-- A jump's offset operand, sign-extended when used (30_encoding.md R72, R130). -/
abbrev Offset := Byte

/-- The 30 operations of the opcode table, without operands (30_encoding.md R77, R80). -/
inductive Op where
  | halt
  | addRR | subRR | mulRR | divRR | incR | decR | modRR
  | addRI | subRI | mulRI | divRI | modRI
  | jmp | jz | jnz | js | jns | jo | jno
  | movRI | movRA | movAI | movRM | movMR
  | cmpRR | cmpRI | cmpRA
  | push | pop
deriving DecidableEq, Repr

/-- The 30 instructions with their operand bytes in encoding order: op1, then op2 (30_encoding.md R71, R80). -/
inductive Instr where
  /-- `00` HALT -/
  | halt
  /-- `A0 r s` ADD r,s -/
  | addRR (r s : RegId)
  /-- `A1 r s` SUB r,s -/
  | subRR (r s : RegId)
  /-- `A2 r s` MUL r,s -/
  | mulRR (r s : RegId)
  /-- `A3 r s` DIV r,s -/
  | divRR (r s : RegId)
  /-- `A4 r` INC r -/
  | incR (r : RegId)
  /-- `A5 r` DEC r -/
  | decR (r : RegId)
  /-- `A6 r s` MOD r,s -/
  | modRR (r s : RegId)
  /-- `B0 r i` ADD r,i -/
  | addRI (r : RegId) (i : Literal)
  /-- `B1 r i` SUB r,i -/
  | subRI (r : RegId) (i : Literal)
  /-- `B2 r i` MUL r,i -/
  | mulRI (r : RegId) (i : Literal)
  /-- `B6 r i` DIV r,i -/
  | divRI (r : RegId) (i : Literal)
  /-- `B7 r i` MOD r,i -/
  | modRI (r : RegId) (i : Literal)
  /-- `C0 d` JMP d -/
  | jmp (d : Offset)
  /-- `C1 d` JZ d -/
  | jz (d : Offset)
  /-- `C2 d` JNZ d -/
  | jnz (d : Offset)
  /-- `C3 d` JS d -/
  | js (d : Offset)
  /-- `C4 d` JNS d -/
  | jns (d : Offset)
  /-- `C5 d` JO d -/
  | jo (d : Offset)
  /-- `C6 d` JNO d -/
  | jno (d : Offset)
  /-- `D0 r i` MOV r,i -/
  | movRI (r : RegId) (i : Literal)
  /-- `D1 r a` MOV r,[a] -/
  | movRA (r : RegId) (a : Address)
  /-- `D2 a i` MOV [a],i; the second byte is a register id when MOVMI_SRC = register (43_move.md R152) -/
  | movAI (a : Address) (i : Literal)
  /-- `D3 r s` MOV r,[s] -/
  | movRM (r s : RegId)
  /-- `D4 r s` MOV [r],s -/
  | movMR (r s : RegId)
  /-- `DA r s` CMP r,s -/
  | cmpRR (r s : RegId)
  /-- `DB r i` CMP r,i -/
  | cmpRI (r : RegId) (i : Literal)
  /-- `DC r a` CMP r,[a] -/
  | cmpRA (r : RegId) (a : Address)
  /-- `E0 r` PUSH r -/
  | push (r : RegId)
  /-- `E1 r` POP r -/
  | pop (r : RegId)
deriving DecidableEq, Repr

/-- The seven formats (30_encoding.md R71). -/
inductive Format where
  | F0 | F1R | F1J | F2RR | F2RI | F2RA | F2AI
deriving DecidableEq, Repr

/-- What an operand byte stands for (30_encoding.md R72). -/
inductive FieldKind where
  | registerId | literal | address | offset
deriving DecidableEq, Repr

/-- The families: the instructions that share an opcode's high nibble, or the HALT sentinel (00_scope.md glossary,
30_encoding.md R77). -/
inductive Family where
  | A | B | C | D | E | haltSentinel
deriving DecidableEq, Repr

end Sys2Proof
end

