-- ==== Sys2Proof/Config.lean ====
section
/-! DEFINITION. What an implementation fixes: the named parameters of 00_scope.md R7 as plain data, and the one free value,
the uninterpreted ARITH_FLAGS (40_alu_register.md R101). The default of each parameter stands in Machine/Defaults.lean.
STEP_LIMIT is no field: it bounds a harness's run and is not architectural (60_exceptions.md R210), so a run takes it as an
argument (Machine/Interface.lean). -/

namespace Sys2Proof

/-- ARITH_RANGE: what commit8 does with a result outside 0..255 (40_alu_register.md R100; D4). -/
inductive ArithRange where
  | fault | wrap
deriving DecidableEq, Repr

/-- ARITH_FLAGS: any function that obeys the law of 40_alu_register.md R101 (`uninterpreted`, the opaque constant below), or
the reference instance `none`, which sets no flag (`referenceNone`; D5). -/
inductive ArithFlags where
  | uninterpreted | referenceNone
deriving DecidableEq, Repr

/-- JUMP_POLICY: whether the flat advance is skipped after a jump (42_control.md R131; D6). -/
inductive JumpPolicy where
  | skip | flat
deriving DecidableEq, Repr

/-- MOVMI_SRC: what the second operand byte of D2 is (43_move.md R152; D7). -/
inductive MovmiSrc where
  | literal | register
deriving DecidableEq, Repr

/-- IMAGE_FILL: what a cell beyond the image holds (20_memory.md R58; D13). -/
inductive ImageFill where
  | none | zero
deriving DecidableEq, Repr

/-- OPCODE_BYTE: the bytes the source leaves open (30_encoding.md R80, R81; D3). The four it fixes, HALT 00, ADD r,s A0,
INC A4 and DEC A5, are no fields: `OpcodeMap.byteOf` gives them. -/
structure OpcodeMap where
  subRR : Byte
  mulRR : Byte
  divRR : Byte
  modRR : Byte
  addRI : Byte
  subRI : Byte
  mulRI : Byte
  divRI : Byte
  modRI : Byte
  jmp : Byte
  jz : Byte
  jnz : Byte
  js : Byte
  jns : Byte
  jo : Byte
  jno : Byte
  movRI : Byte
  movRA : Byte
  movAI : Byte
  movRM : Byte
  movMR : Byte
  cmpRR : Byte
  cmpRI : Byte
  cmpRA : Byte
  push : Byte
  pop : Byte
deriving DecidableEq, Repr

/-- The configuration of a constructed core (00_scope.md R7, 70_reset_and_hazards.md R233). -/
structure Config where
  /-- MEM_SIZE, between 0xC0 and 0x100 (20_memory.md R50; D12). -/
  memSize : Nat
  arithRange : ArithRange
  arithFlags : ArithFlags
  jumpPolicy : JumpPolicy
  movmiSrc : MovmiSrc
  imageFill : ImageFill
  /-- The opcode table's bytes, immutable once the core is constructed (10_state.md R40). -/
  opcodes : OpcodeMap
deriving DecidableEq, Repr

/-- STEP_LIMIT: how many steps the host's harness lets a run take, or none, a run without a bound (00_scope.md R7,
60_exceptions.md R210; D23). -/
abbrev StepLimit := Option Nat

/-- The operations ARITH_FLAGS takes as its first argument (40_alu_register.md R101). -/
inductive ArithOp where
  | add | sub | mul | div | mod | inc | dec
deriving DecidableEq, Repr

/-- THE FREE VALUE (40_alu_register.md R101, U9; log 4): which flag entries an arithmetic instruction sets, as a function of
exactly the five arguments of ARITH_FLAGS: the operation, the operands a and b, the exact result r, the current flags. No
body: nothing can be proved of its values. `Machine.arithFlags` applies it so that the law (set only, entries 4, 5 and 6
only) holds whatever it answers, and every function that obeys the law is of that form. -/
opaque Config.freeArithFlags : ArithOp → Int → Int → Int → Vector Bool 8 → Vector Bool 8

end Sys2Proof
end

