-- ==== Sys2Proof/Decode.lean ====
section
/-! DEFINITION. The encoding (30_encoding.md): formats and operand counts, the opcode table under any OPCODE_BYTE, the
decoder, total on any bytes and rejecting by name, and the encoder written from the same tables. -/

namespace Sys2Proof

/-- The 30 operations in the table's order (30_encoding.md R80). -/
def Op.all : List Op :=
  [.halt,
   .addRR, .subRR, .mulRR, .divRR, .incR, .decR, .modRR,
   .addRI, .subRI, .mulRI, .divRI, .modRI] ++
  [.jmp, .jz, .jnz, .js, .jns, .jo, .jno,
   .movRI, .movRA, .movAI, .movRM, .movMR,
   .cmpRR, .cmpRI, .cmpRA,
   .push, .pop]

/-- The format column (30_encoding.md R71, R80). -/
def Op.format : Op → Format
  | .halt => .F0
  | .addRR | .subRR | .mulRR | .divRR | .modRR => .F2RR
  | .incR | .decR => .F1R
  | .addRI | .subRI | .mulRI | .divRI | .modRI => .F2RI
  | .jmp | .jz | .jnz | .js | .jns | .jo | .jno => .F1J
  | .movRI => .F2RI
  | .movRA => .F2RA
  | .movAI => .F2AI
  | .movRM | .movMR => .F2RR
  | .cmpRR => .F2RR
  | .cmpRI => .F2RI
  | .cmpRA => .F2RA
  | .push | .pop => .F1R

/-- The operand bytes of a format, in address order (30_encoding.md R71). -/
def Format.fields : Format → List FieldKind
  | .F0 => []
  | .F1R => [.registerId]
  | .F1J => [.offset]
  | .F2RR => [.registerId, .registerId]
  | .F2RI => [.registerId, .literal]
  | .F2RA => [.registerId, .address]
  | .F2AI => [.address, .literal]

/-- The operand count `n` of the opcode table, 0, 1 or 2 (30_encoding.md R70). -/
def Op.operandCount (o : Op) : Nat := o.format.fields.length

/-- An operation's family (30_encoding.md R77, R81). -/
def Op.family : Op → Family
  | .halt => .haltSentinel
  | .addRR | .subRR | .mulRR | .divRR | .incR | .decR | .modRR => .A
  | .addRI | .subRI | .mulRI | .divRI | .modRI => .B
  | .jmp | .jz | .jnz | .js | .jns | .jo | .jno => .C
  | .movRI | .movRA | .movAI | .movRM | .movMR | .cmpRR | .cmpRI | .cmpRA => .D
  | .push | .pop => .E

/-- The high nibble of a family's opcodes (30_encoding.md R81); HALT is 00. -/
def Family.nibble : Family → BitVec 4
  | .A => 0xA
  | .B => 0xB
  | .C => 0xC
  | .D => 0xD
  | .E => 0xE
  | .haltSentinel => 0x0

/-- The opcode byte of an operation: the four the source fixes, and the map's for the rest (30_encoding.md R80, R81). -/
def OpcodeMap.byteOf (m : OpcodeMap) : Op → Byte
  | .halt => 0x00
  | .addRR => 0xA0
  | .subRR => m.subRR
  | .mulRR => m.mulRR
  | .divRR => m.divRR
  | .incR => 0xA4
  | .decR => 0xA5
  | .modRR => m.modRR
  | .addRI => m.addRI
  | .subRI => m.subRI
  | .mulRI => m.mulRI
  | .divRI => m.divRI
  | .modRI => m.modRI
  | .jmp => m.jmp
  | .jz => m.jz
  | .jnz => m.jnz
  | .js => m.js
  | .jns => m.jns
  | .jo => m.jo
  | .jno => m.jno
  | .movRI => m.movRI
  | .movRA => m.movRA
  | .movAI => m.movAI
  | .movRM => m.movRM
  | .movMR => m.movMR
  | .cmpRR => m.cmpRR
  | .cmpRI => m.cmpRI
  | .cmpRA => m.cmpRA
  | .push => m.push
  | .pop => m.pop

/-- Lookup in the opcode table; no entry for an illegal byte (30_encoding.md R75, R83). -/
def OpcodeMap.lookup (m : OpcodeMap) (opc : Byte) : Option Op :=
  Op.all.find? (fun o => m.byteOf o == opc)

/-- The default of OPCODE_BYTE: the table of 30_encoding.md R80. UNVERIFIED, unsafe for every byte but 00, A0, A4 and A5: the
spec takes the others from the SMS32 simulator (D3; log 8). -/
def OpcodeMap.standard : OpcodeMap where
  subRR := 0xA1
  mulRR := 0xA2
  divRR := 0xA3
  modRR := 0xA6
  addRI := 0xB0
  subRI := 0xB1
  mulRI := 0xB2
  divRI := 0xB6
  modRI := 0xB7
  jmp := 0xC0
  jz := 0xC1
  jnz := 0xC2
  js := 0xC3
  jns := 0xC4
  jo := 0xC5
  jno := 0xC6
  movRI := 0xD0
  movRA := 0xD1
  movAI := 0xD2
  movRM := 0xD3
  movMR := 0xD4
  cmpRR := 0xDA
  cmpRI := 0xDB
  cmpRA := 0xDC
  push := 0xE0
  pop := 0xE1

/-- The instruction of an operation and its operand bytes op1 and op2; a byte the format lacks is not looked at
(30_encoding.md R71, R76). -/
def Op.build (o : Op) (op1 op2 : Byte) : Instr :=
  match o with
  | .halt => .halt
  | .addRR => .addRR op1 op2
  | .subRR => .subRR op1 op2
  | .mulRR => .mulRR op1 op2
  | .divRR => .divRR op1 op2
  | .incR => .incR op1
  | .decR => .decR op1
  | .modRR => .modRR op1 op2
  | .addRI => .addRI op1 op2
  | .subRI => .subRI op1 op2
  | .mulRI => .mulRI op1 op2
  | .divRI => .divRI op1 op2
  | .modRI => .modRI op1 op2
  | .jmp => .jmp op1
  | .jz => .jz op1
  | .jnz => .jnz op1
  | .js => .js op1
  | .jns => .jns op1
  | .jo => .jo op1
  | .jno => .jno op1
  | .movRI => .movRI op1 op2
  | .movRA => .movRA op1 op2
  | .movAI => .movAI op1 op2
  | .movRM => .movRM op1 op2
  | .movMR => .movMR op1 op2
  | .cmpRR => .cmpRR op1 op2
  | .cmpRI => .cmpRI op1 op2
  | .cmpRA => .cmpRA op1 op2
  | .push => .push op1
  | .pop => .pop op1

/-- Why bytes are no instruction. -/
inductive DecodeReject where
  /-- There is no opcode byte. -/
  | noBytes
  /-- The opcode byte is not in the table (30_encoding.md R75, R83). -/
  | unknownOpcode (opc : Byte)
  /-- The operand bytes the opcode asks for are not all there (30_encoding.md R76). -/
  | truncated (o : Op)
deriving DecidableEq, Repr

/-- The operand bytes the opcode asks for, taken off the front (30_encoding.md R76). -/
def Op.takeOperands (o : Op) (bytes : List Byte) : Except DecodeReject (Instr × List Byte) :=
  match o.operandCount, bytes with
  | 0, rest => .ok (o.build 0 0, rest)
  | 1, op1 :: rest => .ok (o.build op1 0, rest)
  | 2, op1 :: op2 :: rest => .ok (o.build op1 op2, rest)
  | _, _ => .error (.truncated o)

/-- The decoder: the first instruction of some bytes, with the bytes after it (30_encoding.md R75, R76, R82, R85). -/
def decode (m : OpcodeMap) : List Byte → Except DecodeReject (Instr × List Byte)
  | [] => .error .noBytes
  | opc :: rest =>
    match m.lookup opc with
    | none => .error (.unknownOpcode opc)
    | some o => o.takeOperands rest

/-- An instruction's row of the opcode table. -/
def Instr.op : Instr → Op
  | .halt => .halt
  | .addRR _ _ => .addRR
  | .subRR _ _ => .subRR
  | .mulRR _ _ => .mulRR
  | .divRR _ _ => .divRR
  | .incR _ => .incR
  | .decR _ => .decR
  | .modRR _ _ => .modRR
  | .addRI _ _ => .addRI
  | .subRI _ _ => .subRI
  | .mulRI _ _ => .mulRI
  | .divRI _ _ => .divRI
  | .modRI _ _ => .modRI
  | .jmp _ => .jmp
  | .jz _ => .jz
  | .jnz _ => .jnz
  | .js _ => .js
  | .jns _ => .jns
  | .jo _ => .jo
  | .jno _ => .jno
  | .movRI _ _ => .movRI
  | .movRA _ _ => .movRA
  | .movAI _ _ => .movAI
  | .movRM _ _ => .movRM
  | .movMR _ _ => .movMR
  | .cmpRR _ _ => .cmpRR
  | .cmpRI _ _ => .cmpRI
  | .cmpRA _ _ => .cmpRA
  | .push _ => .push
  | .pop _ => .pop

/-- An instruction's operand bytes in address order (30_encoding.md R71). -/
def Instr.operands : Instr → List Byte
  | .halt => []
  | .addRR r s | .subRR r s | .mulRR r s | .divRR r s | .modRR r s => [r, s]
  | .incR r | .decR r => [r]
  | .addRI r i | .subRI r i | .mulRI r i | .divRI r i | .modRI r i => [r, i]
  | .jmp d | .jz d | .jnz d | .js d | .jns d | .jo d | .jno d => [d]
  | .movRI r i => [r, i]
  | .movRA r a => [r, a]
  | .movAI a i => [a, i]
  | .movRM r s | .movMR r s => [r, s]
  | .cmpRR r s => [r, s]
  | .cmpRI r i => [r, i]
  | .cmpRA r a => [r, a]
  | .push r | .pop r => [r]

/-- The length in bytes, 1 + n, found from the opcode alone (30_encoding.md R70, R82). -/
def Instr.length (i : Instr) : Nat := 1 + i.op.operandCount

/-- The encoder: the opcode byte, then op1, then op2, lowest address first (30_encoding.md R71). -/
def encode (m : OpcodeMap) (i : Instr) : List Byte := m.byteOf i.op :: i.operands

/-- Byte `k` of an instruction whose bits are `w`, byte 0 the least significant; bits at `nbits` and above are 0. -/
def tableByte (nbits w k : Nat) : Byte := BitVec.ofNat 8 ((w % 2 ^ nbits) / 2 ^ (8 * k))

/-- The longest instruction's three bytes (30_encoding.md R70), laid out lowest address first. -/
def tableBytes (nbits w : Nat) : List Byte := [tableByte nbits w 0, tableByte nbits w 1, tableByte nbits w 2]

/-- What the decoder reads under the default OPCODE_BYTE from an instruction whose bits are `w` as the opcode table numbers
them: the first byte in bits 7..0, the second in 15..8, the third in 23..16, and zeros from `nbits` on. -/
def decodeTableWord (nbits w : Nat) : Option Instr :=
  match decode OpcodeMap.standard (tableBytes nbits w) with
  | .ok (i, _) => some i
  | .error _ => none

end Sys2Proof
end

