-- ==== Sys2Proof/Machine/Defaults.lean ====
section
/-! DEFINITION. The defaults of the configuration parameters (00_scope.md R7), apart from the types so that each can be
mended. No statement rests on them but those about State.reset. -/

namespace Sys2Proof.Machine

/-- The configuration of State.reset: the default of each parameter in 00_scope.md R7. MEM_SIZE 0x100 (D12; log 2),
ARITH_RANGE fault (D4; log 3), JUMP_POLICY skip (D6; log 5), MOVMI_SRC literal (D7; log 6), IMAGE_FILL none (D13; log 7) and
the table's opcode bytes (D3; log 8). ARITH_FLAGS is left uninterpreted, as 93_implementation_defined.md U9 treats it: its
default `none` is the reference instance of the test vectors (DESIGN CHOICE, safe; log 4). -/
def defaultConfig : Config where
  memSize := 0x100
  arithRange := .fault
  arithFlags := .uninterpreted
  jumpPolicy := .skip
  movmiSrc := .literal
  imageFill := .none
  opcodes := OpcodeMap.standard

/-- The configuration of the vectors and programs of 95_test_vectors.md: the defaults with ARITH_FLAGS = none. -/
def vectorConfig : Config := { defaultConfig with arithFlags := .referenceNone }

/-- The default of STEP_LIMIT: none, a run is not bounded (00_scope.md R7; D23; log 28). -/
def defaultStepLimit : StepLimit := none

/-- The general registers' reset value (10_state.md R24, R44). -/
def resetRegs : Vector Byte 4 := #v[0, 0, 0, 0]

/-- The flags' reset value, all clear (10_state.md R29; D17; log 12). -/
def resetFlags : Vector Bool 8 := #v[false, false, false, false, false, false, false, false]

/-- ip at reset, the entry point (10_state.md R33). -/
def resetIp : Int := 0

/-- sp at reset, the first stack slot (10_state.md R35, 20_memory.md R59). -/
def resetSp : Int := 0xBF

end Sys2Proof.Machine
end

