-- ==== Sys2Proof/Machine/State.lean ====
section
/-! DEFINITION. The state tuple (x, F, ip, sp, mem, status) of 10_state.md as plain data, with the configuration beside it,
the faults the core records, and the reasons a step of the model can stop. -/

namespace Sys2Proof.Machine

/-- The kind of an access, as an AddressError names it (60_exceptions.md R200, 20_memory.md R52, R53). -/
inductive AccessKind where
  | fetch | register | data | stack
deriving DecidableEq, Repr

/-- The core's five faults with what each records (60_exceptions.md R200, R202). `ip` is the address of the faulting
instruction's opcode byte. The core TAKES them: status becomes Faulted (R203). -/
inductive FaultCause where
  | decodeError (opc : Byte) (ip : Int)
  | addressError (kind : AccessKind) (value : Int) (ip : Int)
  | arithmeticOverflow (ip : Int) (r : Int)
  | arithmeticUnderflow (ip : Int) (r : Int)
  | divideByZero (ip : Int)
deriving DecidableEq, Repr

/-- The run status (10_state.md R39). -/
inductive Status where
  /-- Loaded, not yet run. -/
  | idle
  | running
  /-- The HALT sentinel was executed. -/
  | halted
  | faulted (e : FaultCause)
deriving DecidableEq, Repr

/-- Memory as (address, byte) pairs, addresses strictly rising, without an entry equal to what an unlisted address reads as
(`Memory.unlisted`, `Memory.wf` in Machine/Ops.lean). -/
abbrev Memory := List Host.Cell

/-- The whole state (10_state.md R20-R44; R43: no other exists). -/
structure State where
  /-- The constructed core's parameters (00_scope.md R7). Configuration, not the spec's state: no step changes it (log 1). -/
  cfg : Config
  /-- The general registers x[0]..x[3] (10_state.md R20). -/
  x : Vector Byte 4
  /-- The flag entries F[0]..F[7]; 4 is N, 5 is V, 6 is Z (10_state.md R25). -/
  F : Vector Bool 8
  /-- The instruction pointer, an unbounded integer (10_state.md R31). -/
  ip : Int
  /-- The stack pointer, an unbounded integer: the next free slot (10_state.md R34, R36). -/
  sp : Int
  /-- The memory cells (10_state.md R38). -/
  mem : Memory
  /-- The run status (10_state.md R39). -/
  status : Status
deriving DecidableEq, Repr

/-- Why a step of the model stops. The core's own faults are none of these: they are next states (log 9). -/
inductive Fault where
  /-- Raised by `step` when status is Idle: only a Running core steps (10_state.md R39, R41). Safe: no step is defined. -/
  | stepWhileIdle
  /-- Raised by `step` when status is Halted, which is final (10_state.md R39, 46_halt.md R180). Safe: no step is defined. -/
  | stepAfterHalt
  /-- Raised by `step` when status is Faulted, which is final (10_state.md R39, 60_exceptions.md R205). Safe: no step is
  defined. -/
  | stepAfterFault (e : FaultCause)
deriving DecidableEq, Repr

/-- What the model turns away. -/
inductive Refusal where
  /-- Raised by `exec` for an instruction without a meaning yet; no arm raises it. Safe. -/
  | notModelled (mnemonic : String)
  /-- Raised by `load` for an image longer than MEM_SIZE, which the spec refuses, memory unchanged (20_memory.md R58; D30).
  Safe: it is the spec's own refusal. -/
  | imageTooLong (length : Nat)
deriving DecidableEq, Repr

/-- The state right after reset (70_reset_and_hazards.md R230, 10_state.md R44) of a core with the default configuration.
Reset leaves memory as it was; here nothing has been loaded (log 16). -/
def State.reset : State where
  cfg := defaultConfig
  x := resetRegs
  F := resetFlags
  ip := resetIp
  sp := resetSp
  mem := []
  status := .running

end Sys2Proof.Machine
end

