-- ==== Sys2Proof/Machine/Flags.lean ====
section
/-! DEFINITION. Every flag computation: the compare's (44_compare.md R160), the arithmetic's (40_alu_register.md R101), the
conditions of the conditional jumps (10_state.md R27), and the packed byte of a snapshot (10_state.md R30). -/

namespace Sys2Proof.Machine

/-- N, negative, also called sign (10_state.md R25). -/
def flagN (F : Vector Bool 8) : Bool := F[4]
/-- V, overflow (10_state.md R25). -/
def flagV (F : Vector Bool 8) : Bool := F[5]
/-- Z, zero (10_state.md R25). -/
def flagZ (F : Vector Bool 8) : Bool := F[6]

/-- The three-way compare: `a < b` sets N, `a = b` sets Z, `a > b` writes none; nothing is cleared (44_compare.md R160). -/
def cmpFlags (a b : Int) (F : Vector Bool 8) : Vector Bool 8 :=
  if a - b < 0 then F.set 4 true
  else if a - b = 0 then F.set 6 true
  else F

/-- `F` with N, V and Z set where `w` has them set, and nothing cleared. -/
def setNVZ (F w : Vector Bool 8) : Vector Bool 8 :=
  ((F.set 4 (F[4] || w[4])).set 5 (F[5] || w[5])).set 6 (F[6] || w[6])

/-- ARITH_FLAGS(op, a, b, r, F) (40_alu_register.md R101; log 4): the reference instance `none` is the identity; otherwise
the free value says which of N, V and Z are set, under the monotone and confined laws. -/
def arithFlags (sel : ArithFlags) (op : ArithOp) (a b r : Int) (F : Vector Bool 8) : Vector Bool 8 :=
  match sel with
  | .referenceNone => F
  | .uninterpreted => setNVZ F (Config.freeArithFlags op a b r F)

/-- The bit `n` of a byte, set or clear. -/
def bitOf (b : Bool) (n : Nat) : Byte := if b then BitVec.ofNat 8 (2 ^ n) else 0

/-- The flags as one byte, entry k at bit 7-k: for a snapshot only, no instruction sees it (10_state.md R30; D18). -/
def flagsByte (F : Vector Bool 8) : Byte :=
  bitOf F[0] 7 ||| bitOf F[1] 6 ||| bitOf F[2] 5 ||| bitOf F[3] 4 |||
    bitOf F[4] 3 ||| bitOf F[5] 2 ||| bitOf F[6] 1 ||| bitOf F[7] 0

end Sys2Proof.Machine
end

