-- ==== Sys2Proof/Machine/Operands.lean ====
section
/-! DEFINITION. Operand forms (30_encoding.md R72, R73) and the checked register access (10_state.md R21). -/

namespace Sys2Proof.Machine

/-- `twos_comp(v, w)`: the signed reading of a `w`-bit value (30_encoding.md R73). -/
def twosComp (v w : Nat) : Int := if v < 2 ^ (w - 1) then (v : Int) else (v : Int) - 2 ^ w

/-- `sext_8`: an offset operand's value, -128..127 (00_scope.md R10, 30_encoding.md R72). -/
def sext8 (b : Byte) : Int := twosComp b.toNat 8

/-- `zext_8`: a literal's or an address's value, 0..255 (00_scope.md R10, 30_encoding.md R72). -/
def zext8 (b : Byte) : Int := (b.toNat : Int)

/-- The register a register-id byte names; AddressError(Register, v) for any v above 3 (10_state.md R21; D25). -/
def regIndex (s : State) (v : RegId) : Except FaultCause (Fin 4) :=
  if h : v.toNat < 4 then .ok ⟨v.toNat, h⟩ else .error (.addressError .register (zext8 v) s.ip)

/-- `reg(v)`, the checked register read (10_state.md R21). -/
def reg (s : State) (v : RegId) : Except FaultCause Byte :=
  match regIndex s v with
  | .ok k => .ok s.x[k]
  | .error e => .error e

/-- The source of D2: the literal byte, or under MOVMI_SRC = register the register it names (43_move.md R152). -/
def movmiSource (s : State) (i : Literal) : Except FaultCause Byte :=
  match s.cfg.movmiSrc with
  | .literal => .ok i
  | .register => reg s i

end Sys2Proof.Machine
end

