-- ==== Sys2Proof/Machine/Ops.lean ====
section
/-! DEFINITION. The named operations over memory and registers: the state's updates, the memory list, MemRead and MemWrite
(20_memory.md R52, R53), taking a fault (60_exceptions.md R203, R204) and completing a step (30_encoding.md R78, R79). -/

namespace Sys2Proof.Machine

/-- The three outcomes of a step of this machine. -/
abbrev Result := Host.Outcome State Fault Refusal

/-- `x[k] <- v`. -/
def State.setReg (s : State) (k : Fin 4) (v : Byte) : State := { s with x := s.x.set k v }
/-- `F <- f`. -/
def State.setF (s : State) (f : Vector Bool 8) : State := { s with F := f }
/-- `ip <- a`. -/
def State.setIp (s : State) (a : Int) : State := { s with ip := a }
/-- `sp <- a`. -/
def State.setSp (s : State) (a : Int) : State := { s with sp := a }
/-- The memory replaced. -/
def State.setMem (s : State) (m : Memory) : State := { s with mem := m }
/-- `status <- t`. -/
def State.setStatus (s : State) (t : Status) : State := { s with status := t }

/-- What an unlisted address reads as: uninitialised (`none`) under IMAGE_FILL = none, 0x00 under IMAGE_FILL = zero
(20_memory.md R58; log 7). -/
def Memory.unlisted : ImageFill → Option Byte
  | .none => none
  | .zero => some 0

/-- The listed byte at an address, if there is one. -/
def Memory.listed : Memory → Nat → Option Byte
  | [], _ => none
  | (b, v) :: rest, a => if b = a then some v else Memory.listed rest a

/-- The content of a cell: a byte, or `none` for a cell neither the image nor a store has written (10_state.md R38). -/
def Memory.read (fill : ImageFill) (m : Memory) (a : Nat) : Option Byte :=
  match Memory.listed m a with
  | some v => some v
  | none => Memory.unlisted fill

/-- The list with `a` listed as `v`, in address order. -/
def Memory.insert : Memory → Nat → Byte → Memory
  | [], a, v => [(a, v)]
  | (b, w) :: rest, a, v =>
    if a < b then (a, v) :: (b, w) :: rest
    else if a = b then (a, v) :: rest
    else (b, w) :: Memory.insert rest a v

/-- The list without `a`. -/
def Memory.erase (m : Memory) (a : Nat) : Memory := m.filter (fun c => decide (c.1 ≠ a))

/-- A cell written; the canonical form is kept (a byte equal to what an unlisted address reads as is not listed). -/
def Memory.write (fill : ImageFill) (m : Memory) (a : Nat) (v : Byte) : Memory :=
  if some v = Memory.unlisted fill then Memory.erase m a else Memory.insert m a v

/-- The canonical form: addresses strictly rising, and no entry equal to what an unlisted address reads as. -/
abbrev Memory.wf (fill : ImageFill) (m : Memory) : Prop :=
  m.Pairwise (fun p q => p.1 < q.1) ∧ ∀ c ∈ m, some c.2 ≠ Memory.unlisted fill

/-- Every listed cell exists: its address is below MEM_SIZE (10_state.md R38). -/
abbrev Memory.within (size : Nat) (m : Memory) : Prop := ∀ c ∈ m, c.1 < size

/-- Memory right after an image is installed from address `a` on, every other cell as IMAGE_FILL says (20_memory.md R58). -/
def Memory.ofImage (fill : ImageFill) (a : Nat) : List Byte → Memory
  | [] => []
  | b :: rest =>
    if some b = Memory.unlisted fill then Memory.ofImage fill (a + 1) rest
    else (a, b) :: Memory.ofImage fill (a + 1) rest

/-- The content of the cell at `a` (10_state.md R38). -/
def State.cell (s : State) (a : Nat) : Option Byte := Memory.read s.cfg.imageFill s.mem a

/-- `a` is an address: 0..MEM_SIZE-1 (20_memory.md R50). -/
def State.inRange (s : State) (a : Int) : Bool := decide (0 ≤ a) && decide (a < (s.cfg.memSize : Int))

/-- MemRead(a, 1): AddressError(kind, a) outside the memory or on a `none` cell (20_memory.md R52). -/
def memRead (kind : AccessKind) (s : State) (a : Int) : Except FaultCause Byte :=
  if s.inRange a then
    match s.cell a.toNat with
    | some v => .ok v
    | none => .error (.addressError kind a s.ip)
  else .error (.addressError kind a s.ip)

/-- MemWrite(a, 1, v): AddressError(kind, a) outside the memory; else the cell is written, and initialised
(20_memory.md R53). -/
def memWrite (kind : AccessKind) (s : State) (a : Int) (v : Byte) : Except FaultCause State :=
  if s.inRange a then .ok (s.setMem (Memory.write s.cfg.imageFill s.mem a.toNat v))
  else .error (.addressError kind a s.ip)

/-- TAKING A FAULT, the one operation every fault goes through: status becomes Faulted(e), the run stops, and x, F, ip, sp
and mem stay as they were, ip at the faulting instruction's opcode byte (60_exceptions.md R203, R204). There is no vector,
no saved state, no mode and no return from a fault (R203, R205), so nothing stands beside it. -/
def raiseFault (e : FaultCause) (s : State) : Result := .next (s.setStatus (.faulted e))

/-- A step is all or nothing: the writes of an instruction that raised nothing, or from the state before it the fault alone
(30_encoding.md R79). -/
def settle (s : State) (r : Except FaultCause State) : Result :=
  match r with
  | .ok t => .next t
  | .error e => raiseFault e s

/-- The flat advance after an instruction with `n` operand bytes: `ip <- ip + 1 + n` (30_encoding.md R78). -/
def State.advance (s : State) (n : Nat) : State := s.setIp (s.ip + 1 + n)

/-- The numeric code of a fault for the status output (60_exceptions.md R200; D19). -/
def FaultCause.code : FaultCause → Nat
  | .decodeError _ _ => 1
  | .addressError _ _ _ => 2
  | .arithmeticOverflow _ _ => 3
  | .arithmeticUnderflow _ _ => 4
  | .divideByZero _ => 5

/-- The address of the faulting instruction's opcode byte (60_exceptions.md R202). -/
def FaultCause.ip : FaultCause → Int
  | .decodeError _ ip => ip
  | .addressError _ _ ip => ip
  | .arithmeticOverflow ip _ => ip
  | .arithmeticUnderflow ip _ => ip
  | .divideByZero ip => ip

end Sys2Proof.Machine
end

