-- ==== Sys2Proof/Machine/Arith.lean ====
section
/-! DEFINITION. The arithmetic rules shared by the A* and B* families (40_alu_register.md R100-R103). -/

namespace Sys2Proof.Machine

/-- The exact integer result of an operation on operands that are bytes read as unsigned; `b` is 1 for INC and DEC
(40_alu_register.md R101, R102). DIV and MOD are taken with `b ≠ 0` only (`divideCheck`). -/
def arithResult (op : ArithOp) (a b : Int) : Int :=
  match op with
  | .add => a + b
  | .sub => a - b
  | .mul => a * b
  | .div => a / b
  | .mod => a % b
  | .inc => a + b
  | .dec => a - b

/-- DIV and MOD by zero raise DivideByZero before commit8 (40_alu_register.md R102; D11). -/
def divideCheck (s : State) (op : ArithOp) (b : Int) : Except FaultCause Unit :=
  match op with
  | .div | .mod => if b = 0 then .error (.divideByZero s.ip) else .ok ()
  | .add | .sub | .mul | .inc | .dec => .ok ()

/-- commit8: the byte an integer result is stored as, or the range fault (40_alu_register.md R100; D4). -/
def commit8 (s : State) (r : Int) : Except FaultCause Byte :=
  if 0 ≤ r ∧ r ≤ 255 then .ok (BitVec.ofNat 8 r.toNat)
  else match s.cfg.arithRange with
    | .wrap => .ok (BitVec.ofNat 8 (r % 256).toNat)
    | .fault =>
      if r > 255 then .error (.arithmeticOverflow s.ip r) else .error (.arithmeticUnderflow s.ip r)

/-- An operation on operands already read, written back to register `d`, with `n` operand bytes to advance past: the divide
check, commit8, the flags from the state before, the register, ip (40_alu_register.md R100-R104). -/
def arith (op : ArithOp) (d : Fin 4) (a b : Int) (n : Nat) (s : State) : Except FaultCause State :=
  match divideCheck s op b with
  | .error e => .error e
  | .ok () =>
    match commit8 s (arithResult op a b) with
    | .error e => .error e
    | .ok res =>
      .ok (((s.setF (arithFlags s.cfg.arithFlags op a b (arithResult op a b) s.F)).setReg d res).advance n)

/-- The A* two-operand form: op1 is destination and left operand, op2 the right; both are checked in order and read before
the write (40_alu_register.md R103). -/
def arithRegReg (op : ArithOp) (r q : RegId) (s : State) : Result :=
  settle s (match regIndex s r with
    | .error e => .error e
    | .ok d => match reg s q with
      | .error e => .error e
      | .ok b => arith op d (zext8 s.x[d]) (zext8 b) 2 s)

/-- The A* one-operand form, INC and DEC: `b` is 1 (40_alu_register.md R101, R108, R109). -/
def arithReg (op : ArithOp) (r : RegId) (s : State) : Result :=
  settle s (match regIndex s r with
    | .error e => .error e
    | .ok d => arith op d (zext8 s.x[d]) 1 1 s)

/-- The B* form: op1 a register, op2 a zero-extended literal that is never checked (41_alu_immediate.md R125). -/
def arithRegImm (op : ArithOp) (r : RegId) (i : Literal) (s : State) : Result :=
  settle s (match regIndex s r with
    | .error e => .error e
    | .ok d => arith op d (zext8 s.x[d]) (zext8 i) 2 s)

end Sys2Proof.Machine
end

