-- ==== Sys2Proof/Machine/AluImmediate.lean ====
section
/-! DEFINITION. Immediate arithmetic, the B* family (41_alu_immediate.md R120-R125). -/

namespace Sys2Proof.Machine

/-- ADD r,i (41_alu_immediate.md R120). -/
def execAddRI (r : RegId) (i : Literal) (s : State) : Result := arithRegImm .add r i s
/-- SUB r,i (41_alu_immediate.md R121). -/
def execSubRI (r : RegId) (i : Literal) (s : State) : Result := arithRegImm .sub r i s
/-- MUL r,i (41_alu_immediate.md R122). -/
def execMulRI (r : RegId) (i : Literal) (s : State) : Result := arithRegImm .mul r i s
/-- DIV r,i (41_alu_immediate.md R123). -/
def execDivRI (r : RegId) (i : Literal) (s : State) : Result := arithRegImm .div r i s
/-- MOD r,i (41_alu_immediate.md R124). -/
def execModRI (r : RegId) (i : Literal) (s : State) : Result := arithRegImm .mod r i s

end Sys2Proof.Machine
end

