-- ==== Sys2Proof/Machine/AluRegister.lean ====
section
/-! DEFINITION. Register arithmetic, the A* family (40_alu_register.md R104-R110). -/

namespace Sys2Proof.Machine

/-- ADD r,s (40_alu_register.md R104). -/
def execAddRR (r q : RegId) (s : State) : Result := arithRegReg .add r q s
/-- SUB r,s (40_alu_register.md R105). -/
def execSubRR (r q : RegId) (s : State) : Result := arithRegReg .sub r q s
/-- MUL r,s (40_alu_register.md R106). -/
def execMulRR (r q : RegId) (s : State) : Result := arithRegReg .mul r q s
/-- DIV r,s (40_alu_register.md R107). -/
def execDivRR (r q : RegId) (s : State) : Result := arithRegReg .div r q s
/-- INC r (40_alu_register.md R108). -/
def execIncR (r : RegId) (s : State) : Result := arithReg .inc r s
/-- DEC r (40_alu_register.md R109). -/
def execDecR (r : RegId) (s : State) : Result := arithReg .dec r s
/-- MOD r,s (40_alu_register.md R110). -/
def execModRR (r q : RegId) (s : State) : Result := arithRegReg .mod r q s

end Sys2Proof.Machine
end

