-- ==== Sys2Proof/Machine/Compare.lean ====
section
/-! DEFINITION. Comparison, DA-DC (44_compare.md R160-R164). The left operand is always a register and is checked first; the
compare is on unsigned values; ip advances by 3 (R164). -/

namespace Sys2Proof.Machine

/-- The compare of two operands already read, and the advance (44_compare.md R160, R164). -/
def compare (a b : Byte) (s : State) : State := (s.setF (cmpFlags (zext8 a) (zext8 b) s.F)).advance 2

/-- A compare of register `r` with the right operand `right` answers (44_compare.md R164). -/
def compareWith (r : RegId) (right : Except FaultCause Byte) (s : State) : Result :=
  settle s (match reg s r with
    | .error e => .error e
    | .ok a => match right with
      | .error e => .error e
      | .ok b => .ok (compare a b s))

/-- CMP r,s (44_compare.md R161). -/
def execCmpRR (r q : RegId) (s : State) : Result := compareWith r (reg s q) s
/-- CMP r,i (44_compare.md R162). -/
def execCmpRI (r : RegId) (i : Literal) (s : State) : Result := compareWith r (.ok i) s
/-- CMP r,[a] (44_compare.md R163). -/
def execCmpRA (r : RegId) (a : Address) (s : State) : Result := compareWith r (memRead .data s (zext8 a)) s

end Sys2Proof.Machine
end

