-- ==== Sys2Proof/Machine/Control.lean ====
section
/-! DEFINITION. Control transfer, the C* family (42_control.md R130-R139). A jump sets ip itself, relative to the address of
its own opcode byte; the target is not checked here, a bad one faults at the next fetch (R131, R132). -/

namespace Sys2Proof.Machine

/-- What JUMP_POLICY adds to a taken jump: under `flat` the ordinary advance of 2 follows (42_control.md R131). -/
def jumpAdvance : JumpPolicy → Int
  | .skip => 0
  | .flat => 2

/-- ip after JMP: `ip + d + 1` under skip, `ip + d + 3` under flat (42_control.md R131). -/
def jmpTarget (p : JumpPolicy) (ip d : Int) : Int := ip + d + 1 + jumpAdvance p

/-- ip after a taken conditional jump: `ip + d` under skip, `ip + d + 2` under flat (42_control.md R131). -/
def jccTarget (p : JumpPolicy) (ip d : Int) : Int := ip + d + jumpAdvance p

/-- A conditional jump: taken when `cond`, else past its two bytes (42_control.md R131). -/
def jumpIf (cond : Bool) (d : Offset) (s : State) : Result :=
  .next (s.setIp (if cond then jccTarget s.cfg.jumpPolicy s.ip (sext8 d) else s.ip + 2))

/-- JMP d (42_control.md R133). -/
def execJmp (d : Offset) (s : State) : Result := .next (s.setIp (jmpTarget s.cfg.jumpPolicy s.ip (sext8 d)))
/-- JZ d (42_control.md R134). -/
def execJz (d : Offset) (s : State) : Result := jumpIf (flagZ s.F) d s
/-- JNZ d (42_control.md R135). -/
def execJnz (d : Offset) (s : State) : Result := jumpIf (!flagZ s.F) d s
/-- JS d (42_control.md R136). -/
def execJs (d : Offset) (s : State) : Result := jumpIf (flagN s.F) d s
/-- JNS d (42_control.md R137). -/
def execJns (d : Offset) (s : State) : Result := jumpIf (!flagN s.F) d s
/-- JO d (42_control.md R138). -/
def execJo (d : Offset) (s : State) : Result := jumpIf (flagV s.F) d s
/-- JNO d (42_control.md R139). -/
def execJno (d : Offset) (s : State) : Result := jumpIf (!flagV s.F) d s

end Sys2Proof.Machine
end

