-- ==== Sys2Proof/Machine/Halt.lean ====
section
/-! DEFINITION. The halt sentinel (46_halt.md R180). -/

namespace Sys2Proof.Machine

/-- HALT: status becomes Halted; ip is not advanced and stays at the 00 byte (46_halt.md R180; D21). -/
def execHalt (s : State) : Result := .next (s.setStatus .halted)

end Sys2Proof.Machine
end

