-- ==== Sys2Proof/Machine/Move.lean ====
section
/-! DEFINITION. Data movement, D0-D4 (43_move.md R150-R155). Operands in destination, source order; registers are checked in
operand order, then the one memory access with kind Data; no flag is written; ip advances by 3 (R155). -/

namespace Sys2Proof.Machine

/-- A load into register `r` from the address `addr` answers, after `r` is checked (43_move.md R151, R153). -/
def loadTo (r : RegId) (addr : Except FaultCause Int) (s : State) : Result :=
  settle s (match regIndex s r with
    | .error e => .error e
    | .ok d => match addr with
      | .error e => .error e
      | .ok a => match memRead .data s a with
        | .error e => .error e
        | .ok v => .ok ((s.setReg d v).advance 2))

/-- A store of `v` at `a` (43_move.md R152, R154). -/
def storeAt (a : Int) (v : Byte) (s : State) : Except FaultCause State :=
  match memWrite .data s a v with
  | .error e => .error e
  | .ok t => .ok (t.advance 2)

/-- MOV r,i (43_move.md R150). -/
def execMovRI (r : RegId) (i : Literal) (s : State) : Result :=
  settle s (match regIndex s r with
    | .error e => .error e
    | .ok d => .ok ((s.setReg d i).advance 2))

/-- MOV r,[a] (43_move.md R151). -/
def execMovRA (r : RegId) (a : Address) (s : State) : Result := loadTo r (.ok (zext8 a)) s

/-- MOV [a],i, or under MOVMI_SRC = register MOV [a],reg (43_move.md R152). -/
def execMovAI (a : Address) (i : Literal) (s : State) : Result :=
  settle s (match movmiSource s i with
    | .error e => .error e
    | .ok v => storeAt (zext8 a) v s)

/-- MOV r,[s] (43_move.md R153). -/
def execMovRM (r q : RegId) (s : State) : Result :=
  loadTo r (match reg s q with
    | .error e => .error e
    | .ok v => .ok (zext8 v)) s

/-- MOV [r],s (43_move.md R154). -/
def execMovMR (r q : RegId) (s : State) : Result :=
  settle s (match reg s r with
    | .error e => .error e
    | .ok a => match reg s q with
      | .error e => .error e
      | .ok v => storeAt (zext8 a) v s)

end Sys2Proof.Machine
end

