-- ==== Sys2Proof/Machine/Stack.lean ====
section
/-! DEFINITION. The stack, the E* family (45_stack.md R170-R172): sp is the next free slot and the stack grows down. The only
check is that of the access itself (10_state.md R36). -/

namespace Sys2Proof.Machine

/-- PUSH r: the register's value to mem[sp], then sp - 1 (45_stack.md R170). -/
def execPush (r : RegId) (s : State) : Result :=
  settle s (match reg s r with
    | .error e => .error e
    | .ok v => match memWrite .stack s s.sp v with
      | .error e => .error e
      | .ok t => .ok ((t.setSp (s.sp - 1)).advance 1))

/-- POP r: sp + 1, then the cell at the new sp to the register; on a fault sp and x are unchanged (45_stack.md R171; D15). -/
def execPop (r : RegId) (s : State) : Result :=
  settle s (match regIndex s r with
    | .error e => .error e
    | .ok d => match memRead .stack s (s.sp + 1) with
      | .error e => .error e
      | .ok v => .ok (((s.setReg d v).setSp (s.sp + 1)).advance 1))

end Sys2Proof.Machine
end

