-- ==== Sys2Proof/Machine/Dispatch.lean ====
section
/-! DEFINITION. The dispatch: one meaning for each instruction (30_encoding.md R77). -/

namespace Sys2Proof.Machine

-- exec is the execute part of a step (30_encoding.md R77-R79): it does not look at status, step does.
def exec (i : Instr) (s : State) : Host.Outcome State Fault Refusal :=
  match i with
  | .halt => Sys2Proof.Machine.execHalt s
  -- A*: 40_alu_register.md
  | .addRR r q => Sys2Proof.Machine.execAddRR r q s
  | .subRR r q => Sys2Proof.Machine.execSubRR r q s
  | .mulRR r q => Sys2Proof.Machine.execMulRR r q s
  | .divRR r q => Sys2Proof.Machine.execDivRR r q s
  | .incR r => Sys2Proof.Machine.execIncR r s
  | .decR r => Sys2Proof.Machine.execDecR r s
  | .modRR r q => Sys2Proof.Machine.execModRR r q s
  -- B*: 41_alu_immediate.md
  | .addRI r k => Sys2Proof.Machine.execAddRI r k s
  | .subRI r k => Sys2Proof.Machine.execSubRI r k s
  | .mulRI r k => Sys2Proof.Machine.execMulRI r k s
  | .divRI r k => Sys2Proof.Machine.execDivRI r k s
  | .modRI r k => Sys2Proof.Machine.execModRI r k s
  -- C*: 42_control.md
  | .jmp d => Sys2Proof.Machine.execJmp d s
  | .jz d => Sys2Proof.Machine.execJz d s
  | .jnz d => Sys2Proof.Machine.execJnz d s
  | .js d => Sys2Proof.Machine.execJs d s
  | .jns d => Sys2Proof.Machine.execJns d s
  | .jo d => Sys2Proof.Machine.execJo d s
  | .jno d => Sys2Proof.Machine.execJno d s
  -- D0-D4: 43_move.md
  | .movRI r k => Sys2Proof.Machine.execMovRI r k s
  | .movRA r a => Sys2Proof.Machine.execMovRA r a s
  | .movAI a k => Sys2Proof.Machine.execMovAI a k s
  | .movRM r q => Sys2Proof.Machine.execMovRM r q s
  | .movMR r q => Sys2Proof.Machine.execMovMR r q s
  -- DA-DC: 44_compare.md
  | .cmpRR r q => Sys2Proof.Machine.execCmpRR r q s
  | .cmpRI r k => Sys2Proof.Machine.execCmpRI r k s
  | .cmpRA r a => Sys2Proof.Machine.execCmpRA r a s
  -- E*: 45_stack.md
  | .push r => Sys2Proof.Machine.execPush r s
  | .pop r => Sys2Proof.Machine.execPop r s

end Sys2Proof.Machine
end

