-- ==== Sys2Proof/Machine/Fetch.lean ====
section
/-! DEFINITION. Fetching and decoding the instruction at ip (30_encoding.md R74-R76), and placing an instruction's bytes where
the next fetch reads them. -/

namespace Sys2Proof.Machine

/-- The operand bytes of an operation, read one at a time in address order after the opcode byte (30_encoding.md R76). -/
def fetchOperands (s : State) (o : Op) : Except FaultCause Instr :=
  match o.operandCount with
  | 0 => .ok (o.build 0 0)
  | 1 => match memRead .fetch s (s.ip + 1) with
    | .error e => .error e
    | .ok op1 => .ok (o.build op1 0)
  | _ => match memRead .fetch s (s.ip + 1) with
    | .error e => .error e
    | .ok op1 => match memRead .fetch s (s.ip + 2) with
      | .error e => .error e
      | .ok op2 => .ok (o.build op1 op2)

/-- The fetch of a step: the opcode byte at ip, its lookup, the operand bytes; each may raise its fault, in this order
(30_encoding.md R74-R76, 60_exceptions.md R206). -/
def fetchInstr (s : State) : Except FaultCause Instr :=
  match memRead .fetch s s.ip with
  | .error e => .error e
  | .ok opc => match s.cfg.opcodes.lookup opc with
    | none => .error (.decodeError opc s.ip)
    | some o => fetchOperands s o

/-- Bytes stored from address `a` on; a byte whose address is no cell is not stored. -/
def State.placeBytes (s : State) (a : Int) : List Byte → State
  | [] => s
  | b :: rest =>
    let t := if s.inRange a then s.setMem (Memory.write s.cfg.imageFill s.mem a.toNat b) else s
    t.placeBytes (a + 1) rest

/-- A Running core with the instruction whose bits are `w` at ip: the three bytes of the longest instruction, and status,
which the fetch needs to be Running (30_encoding.md R74; log 17). -/
def State.placeTableWord (s : State) (nbits w : Nat) : State :=
  (s.placeBytes s.ip (tableBytes nbits w)).setStatus .running

end Sys2Proof.Machine
end

