-- ==== Sys2Proof/Machine/Step.lean ====
section
/-! DEFINITION. One step (30_encoding.md R74-R79, 10_state.md R41) and the place where the next instruction is fetched. -/

namespace Sys2Proof.Machine

/-- One step: a Running core fetches the instruction at ip and executes it, or takes the fetch's fault; from Idle, Halted and
Faulted no step is defined (10_state.md R39; log 10). -/
def step (s : State) : Host.Outcome State Fault Refusal :=
  match s.status with
  | .running => match fetchInstr s with
    | .ok i => exec i s
    | .error e => raiseFault e s
  | .idle => .fault .stepWhileIdle
  | .halted => .fault .stepAfterHalt
  | .faulted e => .fault (.stepAfterFault e)

/-- `s` with the instruction whose bits are `w`, as the opcode table numbers them, stored at ip. -/
def State.withFetchWord (s : State) (nbits w : Nat) : State := s.placeTableWord nbits w

end Sys2Proof.Machine
end

