-- ==== Sys2Proof/WellFormed.lean ====
section
/-! DEFINITION. The checks on what the host gives the core: an opcode map, a configuration, an image; and, for an
instruction, whether its register operands name registers. Decode needs no check of an instruction: every operand byte is
accepted (30_encoding.md R84, R85), and the encoder and decoder are stated for all of them. `Instr.wf` is what keeps an
instruction from an AddressError(Register) when it executes (10_state.md R21). -/

namespace Sys2Proof

/-- The constraints every OPCODE_BYTE keeps: each byte in its family's high nibble, and no two instructions share a byte
(30_encoding.md R81). -/
def OpcodeMap.wf (m : OpcodeMap) : Bool :=
  Op.all.all (fun o => (m.byteOf o).extractLsb' 4 4 == o.family.nibble) && decide (Op.all.map m.byteOf).Nodup

/-- The range of MEM_SIZE (00_scope.md R7, 20_memory.md R50) and the constraints of the opcode map. -/
def Config.wf (c : Config) : Bool :=
  decide (0xC0 ≤ c.memSize) && decide (c.memSize ≤ 0x100) && c.opcodes.wf

/-- An image fits the memory (20_memory.md R58). -/
def Config.acceptsImage (c : Config) (image : List Byte) : Bool := decide (image.length ≤ c.memSize)

/-- A register id names a register (10_state.md R21). -/
def RegId.named (v : RegId) : Bool := decide (v.toNat < 4)

/-- The register operands of an instruction, in the order they are checked (40_alu_register.md R103, 43_move.md R155,
44_compare.md R164). D2's second byte is one when MOVMI_SRC = register (43_move.md R152). -/
def Instr.regOperands (src : MovmiSrc) : Instr → List RegId
  | .halt => []
  | .addRR r s | .subRR r s | .mulRR r s | .divRR r s | .modRR r s => [r, s]
  | .incR r | .decR r => [r]
  | .addRI r _ | .subRI r _ | .mulRI r _ | .divRI r _ | .modRI r _ => [r]
  | .jmp _ | .jz _ | .jnz _ | .js _ | .jns _ | .jo _ | .jno _ => []
  | .movRI r _ => [r]
  | .movRA r _ => [r]
  | .movAI _ i => match src with
    | .literal => []
    | .register => [i]
  | .movRM r s | .movMR r s => [r, s]
  | .cmpRR r s => [r, s]
  | .cmpRI r _ => [r]
  | .cmpRA r _ => [r]
  | .push r | .pop r => [r]

/-- Every register operand names a register. -/
def Instr.wf (src : MovmiSrc) (i : Instr) : Bool := (i.regOperands src).all RegId.named

end Sys2Proof
end

