-- ==== Sys2Proof/Machine/Interface.lean ====
section
/-! DEFINITION. What the host does with the block (10_state.md R41, R42; 70_reset_and_hazards.md R230-R234): construct, load,
run, snapshot, and the text forms of bytes and addresses at that boundary (00_scope.md R8, 20_memory.md R51). -/

namespace Sys2Proof.Machine

/-- A constructed core, nothing loaded. The spec names no contents before load() and run(): the reset values stand here, and
status is Idle (DESIGN CHOICE, unsafe; log 15). -/
def State.construct (c : Config) : State where
  cfg := c
  x := resetRegs
  F := resetFlags
  ip := resetIp
  sp := resetSp
  mem := []
  status := .idle

/-- load(image): the image at offset 0, the cells beyond it as IMAGE_FILL says, status Idle; an image longer than MEM_SIZE is
refused and nothing changes (20_memory.md R58, 10_state.md R41). x, F, ip and sp stay (log 14). -/
def State.load (s : State) (image : List Byte) : Result :=
  if s.cfg.acceptsImage image then
    .next ((s.setMem (Memory.ofImage s.cfg.imageFill 0 image)).setStatus .idle)
  else .refused (.imageTooLong image.length)

/-- The reset run() begins with; memory and the configuration stay (70_reset_and_hazards.md R230, 20_memory.md R65). -/
def State.beginRun (s : State) : State where
  cfg := s.cfg
  x := resetRegs
  F := resetFlags
  ip := resetIp
  sp := resetSp
  mem := s.mem
  status := .running

/-- What `limit` steps show of a run (70_reset_and_hazards.md R234), with the last state reached; `unfinished` is a run that had
not ended by then. -/
inductive RunEnd where
  | halted (s : State)
  | faulted (e : FaultCause) (s : State)
  | unfinished (s : State)
deriving DecidableEq, Repr

/-- Steps while status is Running, at most `limit` of them (70_reset_and_hazards.md R230). -/
def State.continueRun : Nat → State → RunEnd
  | limit, s =>
    match s.status with
    | .halted => .halted s
    | .faulted e => .faulted e s
    | .idle => .unfinished s
    | .running =>
      match limit with
      | 0 => .unfinished s
      | n + 1 =>
        match step s with
        | .next t => State.continueRun n t
        | .fault _ => .unfinished s
        | .refused _ => .unfinished s

/-- run() under a STEP_LIMIT of `limit`: the reset, then steps (10_state.md R41, 60_exceptions.md R210). -/
def State.run (limit : Nat) (s : State) : RunEnd := State.continueRun limit s.beginRun

/-- The outcome of a run: the three ways of 70_reset_and_hazards.md R234, and beside them `cutShort`, a run stopped by
STEP_LIMIT, which has no architectural outcome (60_exceptions.md R210). -/
inductive RunOutcome where
  | halted (s : State)
  | faulted (e : FaultCause) (s : State)
  | endless
  | cutShort (s : State)
deriving DecidableEq, Repr

/-- What a run stopped by its STEP_LIMIT at the latest comes to. -/
def RunEnd.outcome : RunEnd → RunOutcome
  | .halted s => .halted s
  | .faulted e s => .faulted e s
  | .unfinished s => .cutShort s

/-- Steps while status is Running, under STEP_LIMIT, come to the outcome `o`. With a bound they are counted; without one the
run halts or faults after some number of steps, or is still Running after every number of steps and never ends
(70_reset_and_hazards.md R234, 60_exceptions.md R210, R215). -/
def State.continuesTo (limit : StepLimit) (s : State) (o : RunOutcome) : Prop :=
  match limit with
  | some n => (State.continueRun n s).outcome = o
  | none => match o with
    | .halted t => ∃ n, State.continueRun n s = .halted t
    | .faulted e t => ∃ n, State.continueRun n s = .faulted e t
    | .endless => ∀ n, ∃ t, State.continueRun n s = .unfinished t ∧ t.status = .running
    | .cutShort _ => False

/-- run() comes to the outcome `o`: the reset, then steps until status is Halted or Faulted, or forever; by default no
STEP_LIMIT cuts it short (10_state.md R41, 70_reset_and_hazards.md R230; log 28). -/
def State.runsTo (s : State) (o : RunOutcome) (limit : StepLimit := defaultStepLimit) : Prop :=
  State.continuesTo limit s.beginRun o

/-- A read-only snapshot: registers, flags with their packed byte, ip, sp, the MEM_SIZE cells, status (10_state.md R42,
R30), with the fault's code (60_exceptions.md R200). -/
structure Snapshot where
  x : Vector Byte 4
  F : Vector Bool 8
  flags : Byte
  ip : Int
  sp : Int
  cells : List (Option Byte)
  status : Status
  /-- The numeric code of the fault, when status is Faulted (60_exceptions.md R200; D19). -/
  faultCode : Option Nat
deriving DecidableEq, Repr

/-- The snapshot of a state (10_state.md R42). -/
def State.snapshot (s : State) : Snapshot where
  x := s.x
  F := s.F
  flags := flagsByte s.F
  ip := s.ip
  sp := s.sp
  cells := (List.range s.cfg.memSize).map s.cell
  status := s.status
  faultCode := match s.status with
    | .faulted e => some e.code
    | .idle => none
    | .running => none
    | .halted => none

/-- An uppercase hexadecimal digit (00_scope.md R8). -/
def hexDigit (n : BitVec 4) : Char :=
  if n.toNat < 10 then Char.ofNat (0x30 + n.toNat) else Char.ofNat (0x37 + n.toNat)

/-- A byte as its two-hex-digit uppercase string (00_scope.md R8, 20_memory.md R58). -/
def byteText (b : Byte) : List Char := [hexDigit (b.extractLsb' 4 4), hexDigit (b.extractLsb' 0 4)]

/-- The value of a hexadecimal digit, either case (log 23). -/
def hexValue (c : Char) : Option Nat :=
  if 0x30 ≤ c.toNat ∧ c.toNat ≤ 0x39 then some (c.toNat - 0x30)
  else if 0x41 ≤ c.toNat ∧ c.toNat ≤ 0x46 then some (c.toNat - 0x37)
  else if 0x61 ≤ c.toNat ∧ c.toNat ≤ 0x66 then some (c.toNat - 0x57)
  else none

/-- The number digits spell, after what was read before them. -/
def hexNumber (acc : Nat) : List Char → Option Nat
  | [] => some acc
  | c :: rest => match hexValue c with
    | some d => hexNumber (16 * acc + d) rest
    | none => none

/-- An address string without its `0x` or `0X` prefix (20_memory.md R51). -/
def stripPrefix : List Char → List Char
  | '0' :: 'x' :: rest => rest
  | '0' :: 'X' :: rest => rest
  | cs => cs

/-- The integer an address string stands for: bare or prefixed hex digits; no digits are no address (20_memory.md R51). -/
def addressOfText (cs : List Char) : Option Nat :=
  match stripPrefix cs with
  | [] => none
  | c :: rest => hexNumber 0 (c :: rest)

/-- The byte a two-hex-digit string denotes (00_scope.md R8). -/
def byteOfText : List Char → Option Byte
  | [h, l] => match hexValue h, hexValue l with
    | some u, some v => some (BitVec.ofNat 8 (16 * u + v))
    | _, _ => none
  | _ => none

end Sys2Proof.Machine
end

