-- ==== Sys2Proof/Safety.lean ====
section
/-! DEFINITION. The terms in which claims are stated: what a good state is, what it is for an instruction to take a fault, and
the spec's tables of what each instruction reads, writes and may raise. -/

namespace Sys2Proof.Machine

/-- The unused flag entries are clear (10_state.md R28). -/
abbrev State.unusedFlagsClear (s : State) : Prop :=
  s.F[0] = false ∧ s.F[1] = false ∧ s.F[2] = false ∧ s.F[3] = false ∧ s.F[7] = false

/-- A recorded fault's ip is the state's ip, and the two range faults record a result out of range (60_exceptions.md R200,
R202, R204). -/
def State.faultRecordOk (s : State) : Bool :=
  match s.status with
  | .faulted (.arithmeticOverflow ip r) => decide (ip = s.ip) && decide (255 < r)
  | .faulted (.arithmeticUnderflow ip r) => decide (ip = s.ip) && decide (r < 0)
  | .faulted e => decide (e.ip = s.ip)
  | .idle => true
  | .running => true
  | .halted => true

/-- What every state the machine reaches satisfies: a legal configuration; memory in canonical form and inside MEM_SIZE
(10_state.md R38); sp in -1..MEM_SIZE-1 (10_state.md R36); the unused flags clear (10_state.md R28); a fault record that
belongs to the state (60_exceptions.md R202). -/
structure State.Inv (s : State) : Prop where
  config : s.cfg.wf = true
  memory : Memory.wf s.cfg.imageFill s.mem
  cells : Memory.within s.cfg.memSize s.mem
  stackLow : -1 ≤ s.sp
  stackHigh : s.sp ≤ (s.cfg.memSize : Int) - 1
  flags : s.unusedFlagsClear
  record : s.faultRecordOk = true

/-- The cell at `a` exists and holds `v`: what MemRead(a, 1) returns a byte for (20_memory.md R52). -/
abbrev State.holds (s : State) (a : Int) (v : Byte) : Prop :=
  0 ≤ a ∧ a < (s.cfg.memSize : Int) ∧ s.cell a.toNat = some v

/-- The cell at `a` does not exist or holds no byte: what MemRead(a, 1) faults on (20_memory.md R52). -/
abbrev State.unreadable (s : State) (a : Int) : Prop :=
  a < 0 ∨ (s.cfg.memSize : Int) ≤ a ∨ s.cell a.toNat = none

/-- `bytes` stand in consecutive cells from `a` on. -/
def State.holdsBytes (s : State) (a : Int) : List Byte → Prop
  | [] => True
  | b :: rest => s.holds a b ∧ s.holdsBytes (a + 1) rest

/-- Executing `i` takes the fault `e`: status becomes Faulted(e) and nothing else changes (60_exceptions.md R203, R204). -/
abbrev Faults (i : Instr) (s : State) (e : FaultCause) : Prop :=
  exec i s = .next { s with status := .faulted e }

/-- The check of the register id `r` (10_state.md R21). -/
abbrev ChecksReg (i : Instr) (s : State) (r : RegId) : Prop :=
  4 ≤ r.toNat → Faults i s (.addressError .register (zext8 r) s.ip)

/-- The checks of two register ids in operand order: `r` first, and `q` only when `r` is good (40_alu_register.md R103). -/
abbrev ChecksRegs (i : Instr) (s : State) (r q : RegId) : Prop :=
  ChecksReg i s r ∧ (r.toNat < 4 → ChecksReg i s q)

/-- `i` puts `v` in `x[d]`, sets the flags by ARITH_FLAGS(op, a, b, res, F) and advances ip by `len`, all else unchanged. -/
abbrev CommitsArith (i : Instr) (s : State) (d : Fin 4) (v : Byte) (op : ArithOp) (a b res : Int) (len : Int) : Prop :=
  exec i s = .next { s with
    x := s.x.set d v
    F := arithFlags s.cfg.arithFlags op a b res s.F
    ip := s.ip + len }

/-- `i` commits the integer result `res` of `op` on `a` and `b` (40_alu_register.md R100, R101): in range it stores `res`; out
of range it stores `res mod 256` under wrap, and under fault raises Overflow above and Underflow below. -/
abbrev CommitsResult (i : Instr) (s : State) (d : Fin 4) (op : ArithOp) (a b res : Int) (len : Int) : Prop :=
  (∀ v : Byte, zext8 v = res → CommitsArith i s d v op a b res len) ∧
  (∀ v : Byte, s.cfg.arithRange = .wrap → zext8 v = res % 256 → CommitsArith i s d v op a b res len) ∧
  (s.cfg.arithRange = .fault → 255 < res → Faults i s (.arithmeticOverflow s.ip res)) ∧
  (s.cfg.arithRange = .fault → res < 0 → Faults i s (.arithmeticUnderflow s.ip res))

/-- `i` compares `a` with `b`, unsigned: N when `a < b`, Z when `a = b`, no flag when `a > b`; nothing is cleared, ip advances
by 3 and nothing else changes (44_compare.md R160). -/
abbrev Compares (i : Instr) (s : State) (a b : Byte) : Prop :=
  (a.toNat < b.toNat → exec i s = .next { s with F := s.F.set 4 true, ip := s.ip + 3 }) ∧
  (a = b → exec i s = .next { s with F := s.F.set 6 true, ip := s.ip + 3 }) ∧
  (b.toNat < a.toNat → exec i s = .next { s with ip := s.ip + 3 })

/-- A jump `i` raises nothing itself, and a target outside the memory raises AddressError(Fetch, target) at the next fetch
(42_control.md R132). -/
abbrev BadTargetFaultsNext (i : Instr) (s : State) : Prop :=
  ∀ t, exec i s = .next t → t.status = .running → (t.ip < 0 ∨ (t.cfg.memSize : Int) ≤ t.ip) →
    step t = .next { t with status := .faulted (.addressError .fetch t.ip t.ip) }

/-- A conditional jump `i` on the condition `c` (42_control.md R131). -/
abbrev JumpsWhen (i : Instr) (s : State) (d : Offset) (c : Prop) : Prop :=
  (c → s.cfg.jumpPolicy = .skip → exec i s = .next { s with ip := s.ip + sext8 d }) ∧
  (c → s.cfg.jumpPolicy = .flat → exec i s = .next { s with ip := s.ip + sext8 d + 2 }) ∧
  (¬ c → exec i s = .next { s with ip := s.ip + 2 }) ∧
  BadTargetFaultsNext i s

/-- The register an instruction writes (10_state.md R23, column writes). -/
def writesReg : Instr → Option RegId
  | .addRR r _ | .subRR r _ | .mulRR r _ | .divRR r _ | .modRR r _ => some r
  | .incR r | .decR r => some r
  | .addRI r _ | .subRI r _ | .mulRI r _ | .divRI r _ | .modRI r _ => some r
  | .movRI r _ | .movRA r _ | .movRM r _ => some r
  | .pop r => some r
  | .halt | .jmp _ | .jz _ | .jnz _ | .js _ | .jns _ | .jo _ | .jno _ => none
  | .movAI _ _ | .movMR _ _ => none
  | .cmpRR _ _ | .cmpRI _ _ | .cmpRA _ _ => none
  | .push _ => none

/-- The registers an instruction reads (10_state.md R23, column reads). -/
def readsRegs (src : MovmiSrc) : Instr → List RegId
  | .addRR r q | .subRR r q | .mulRR r q | .divRR r q | .modRR r q => [r, q]
  | .incR r | .decR r => [r]
  | .addRI r _ | .subRI r _ | .mulRI r _ | .divRI r _ | .modRI r _ => [r]
  | .movAI _ i => match src with
    | .literal => []
    | .register => [i]
  | .movRM _ q => [q]
  | .movMR r q => [r, q]
  | .cmpRR r q => [r, q]
  | .cmpRI r _ | .cmpRA r _ => [r]
  | .push r => [r]
  | .halt | .jmp _ | .jz _ | .jnz _ | .js _ | .jns _ | .jo _ | .jno _ => []
  | .movRI _ _ | .movRA _ _ => []
  | .pop _ => []

/-- The instructions that may write the flags: arithmetic and compares (10_state.md R26). -/
def writesFlags (i : Instr) : Bool :=
  match i.op with
  | .cmpRR | .cmpRI | .cmpRA => true
  | o => o.family == .A || o.family == .B

/-- The instructions that read the flags: the conditional jumps (10_state.md R27). -/
def readsFlags (i : Instr) : Bool :=
  match i.op with
  | .jz | .jnz | .js | .jns | .jo | .jno => true
  | _ => false

/-- PUSH and POP, the only instructions that read or write sp (10_state.md R34). -/
def usesStack (i : Instr) : Bool := i.op.family == .E

/-- Which fault an executing instruction may raise (60_exceptions.md R201; the fetch's own faults are the step's). -/
def mayRaise (src : MovmiSrc) (i : Instr) : FaultCause → Bool
  | .decodeError _ _ => false
  | .addressError .fetch _ _ => false
  | .addressError .register _ _ => !(i.regOperands src).isEmpty
  | .addressError .data _ _ => match i.op with
    | .movRA | .movAI | .movRM | .movMR | .cmpRA => true
    | _ => false
  | .addressError .stack _ _ => usesStack i
  | .arithmeticOverflow _ _ => match i.op with
    | .addRR | .mulRR | .addRI | .mulRI | .incR => true
    | _ => false
  | .arithmeticUnderflow _ _ => match i.op with
    | .subRR | .subRI | .decR => true
    | _ => false
  | .divideByZero _ => match i.op with
    | .divRR | .modRR | .divRI | .modRI => true
    | _ => false

/-- An outcome with every state in it mapped. -/
def Result.map (f : State → State) : Result → Result
  | .next t => .next (f t)
  | .fault e => .fault e
  | .refused e => .refused e

/-- No fault is recorded in `t`: what an instruction that completed leaves of a core that had none. -/
abbrev State.completed (t : State) : Prop := ∀ e, t.status ≠ .faulted e

end Sys2Proof.Machine
end

