-- ==== Sys2Proof/Certificates/Slice0/Obligations.lean ====
section
/-! DEFINITION. The statements for the provers, each from the spec's numbered rules. A statement about an instruction's effect
concludes that exec answers a next state, for every state and operands that meet hypotheses on them alone. -/

open Sys2Proof Sys2Proof.Machine

/-! ## Encoding and decoding -/

/-- 30_encoding.md R70, R71, R76, R82, R85: under every opcode map that keeps the constraints of R81, decoding the encoding of
any instruction, whatever its operand bytes and whatever bytes follow, gives it back. -/
def Obligations.DecodeOfEncode : Prop :=
  ∀ (m : OpcodeMap), m.wf = true → ∀ (i : Instr) (rest : List Byte), decode m (encode m i ++ rest) = .ok (i, rest)

/-- 30_encoding.md R71, R75, R76: what the decoder reads encodes back to the very bytes it read. -/
def Obligations.EncodeOfDecode : Prop :=
  ∀ (m : OpcodeMap) (bytes rest : List Byte) (i : Instr), decode m bytes = .ok (i, rest) → encode m i ++ rest = bytes

/-- 30_encoding.md R75, R82, R85: the opcode byte alone decides the operation and the length, and every value of every operand
byte is accepted, unread. -/
def Obligations.OpcodeByteAloneDecides : Prop :=
  (∀ (m : OpcodeMap) (opc : Byte) (tail tail' rest rest' : List Byte) (i i' : Instr),
    decode m (opc :: tail) = .ok (i, rest) → decode m (opc :: tail') = .ok (i', rest') →
    i.op = i'.op ∧ i.length = i'.length ∧ tail.length = i.op.operandCount + rest.length) ∧
  (∀ (m : OpcodeMap) (opc : Byte) (o : Op) (operands : List Byte),
    m.lookup opc = some o → operands.length = o.operandCount →
    ∃ i, decode m (opc :: operands) = .ok (i, []) ∧ i.op = o ∧ i.operands = operands)

/-- 30_encoding.md R81: every opcode map of the model keeps the bytes the source fixes, the families' high nibbles and the
operand counts, and shares no byte; the default map (log 8) is one of them. -/
def Obligations.OpcodeMapsKeepConstraints : Prop :=
  OpcodeMap.standard.wf = true ∧
  (∀ (m : OpcodeMap), m.byteOf .halt = 0x00 ∧ m.byteOf .addRR = 0xA0 ∧ m.byteOf .incR = 0xA4 ∧ m.byteOf .decR = 0xA5) ∧
  (∀ (m : OpcodeMap), m.wf = true → ∀ o o' : Op, m.byteOf o = m.byteOf o' → o = o') ∧
  (∀ (m : OpcodeMap), m.wf = true → ∀ o : Op, o ≠ .halt →
    (m.byteOf o).toNat / 16 = (match o.family with
      | .A => 0xA
      | .B => 0xB
      | .C => 0xC
      | .D => 0xD
      | .E => 0xE
      | .haltSentinel => 0)) ∧
  (∀ o : Op, o.operandCount = (match o.family with
      | .A => if o = .incR ∨ o = .decR then 1 else 2
      | .B => 2
      | .C => 1
      | .D => 2
      | .E => 1
      | .haltSentinel => 0))

/-- 30_encoding.md R83: a byte outside the table is illegal, and fetching one raises DecodeError(opc, ip); with the default
opcode map these are the 226 bytes listed (the spec's default table, log 8). -/
def Obligations.IllegalOpcodes : Prop :=
  (∀ (s : State) (opc : Byte), s.status = .running → s.holds s.ip opc →
    (∀ o : Op, s.cfg.opcodes.byteOf o ≠ opc) →
    step s = .next { s with status := .faulted (.decodeError opc s.ip) }) ∧
  (∀ (m : OpcodeMap) (opc : Byte) (rest : List Byte), (∀ o : Op, m.byteOf o ≠ opc) →
    decode m (opc :: rest) = .error (.unknownOpcode opc)) ∧
  (∀ opc : Byte, (∀ o : Op, OpcodeMap.standard.byteOf o ≠ opc) ↔
    (0x01 ≤ opc.toNat ∧ opc.toNat ≤ 0x9F) ∨ (0xA7 ≤ opc.toNat ∧ opc.toNat ≤ 0xAF) ∨
    (0xB3 ≤ opc.toNat ∧ opc.toNat ≤ 0xB5) ∨ (0xB8 ≤ opc.toNat ∧ opc.toNat ≤ 0xBF) ∨
    (0xC7 ≤ opc.toNat ∧ opc.toNat ≤ 0xCF) ∨ (0xD5 ≤ opc.toNat ∧ opc.toNat ≤ 0xD9) ∨
    (0xDD ≤ opc.toNat ∧ opc.toNat ≤ 0xDF) ∨ 0xE2 ≤ opc.toNat)

/-- 30_encoding.md R80 and the encodings of 95_test_vectors.md: one word of each family, written out from the table, decodes to
the instruction it stands for, with the numbering of the opcode table too. -/
def Obligations.DefaultTableWords : Prop :=
  decode OpcodeMap.standard [0x00] = .ok (.halt, []) ∧
  decode OpcodeMap.standard [0xA1, 0x02, 0x03] = .ok (.subRR 2 3, []) ∧
  decode OpcodeMap.standard [0xB6, 0x03, 0x0A] = .ok (.divRI 3 0x0A, []) ∧
  decode OpcodeMap.standard [0xC2, 0xFB] = .ok (.jnz 0xFB, []) ∧
  decode OpcodeMap.standard [0xD2, 0x80, 0x55] = .ok (.movAI 0x80 0x55, []) ∧
  decode OpcodeMap.standard [0xDC, 0x00, 0x81] = .ok (.cmpRA 0 0x81, []) ∧
  decode OpcodeMap.standard [0xE1, 0x01] = .ok (.pop 1, []) ∧
  decodeTableWord 24 0x0102D4 = some (.movMR 2 1)

/-- 30_encoding.md R73: twos_comp, with the source's three values. -/
def Obligations.TwosComplement : Prop :=
  (∀ v w : Nat, v < 2 ^ w → (v < 2 ^ (w - 1) → twosComp v w = v) ∧ (2 ^ (w - 1) ≤ v → twosComp v w = (v : Int) - 2 ^ w)) ∧
  (∀ b : Byte, sext8 b = twosComp b.toNat 8 ∧ sext8 b = b.toInt ∧ -128 ≤ sext8 b ∧ sext8 b ≤ 127) ∧
  twosComp 0xFF 8 = -1 ∧ twosComp 0x80 8 = -128 ∧ twosComp 0x7F 8 = 127

/-! ## The step -/

/-- 30_encoding.md R74-R77: when the bytes at ip decode to an instruction, a step of a Running core is that instruction's
execution. -/
def Obligations.StepRunsDecodedInstruction : Prop :=
  ∀ (s : State) (bytes rest : List Byte) (i : Instr), s.status = .running → s.holdsBytes s.ip bytes →
    decode s.cfg.opcodes bytes = .ok (i, rest) → step s = exec i s

/-- 30_encoding.md R74-R76, 60_exceptions.md R206 items 1-3: the faults of the fetch, in their order: the opcode byte, its
lookup, op1, op2. -/
def Obligations.FetchFaultsInOrder : Prop :=
  ∀ s : State, s.status = .running →
    (s.unreadable s.ip → step s = .next { s with status := .faulted (.addressError .fetch s.ip s.ip) }) ∧
    (∀ opc, s.holds s.ip opc → s.cfg.opcodes.lookup opc = none →
      step s = .next { s with status := .faulted (.decodeError opc s.ip) }) ∧
    (∀ opc o, s.holds s.ip opc → s.cfg.opcodes.lookup opc = some o → 1 ≤ o.operandCount → s.unreadable (s.ip + 1) →
      step s = .next { s with status := .faulted (.addressError .fetch (s.ip + 1) s.ip) }) ∧
    (∀ opc o op1, s.holds s.ip opc → s.cfg.opcodes.lookup opc = some o → o.operandCount = 2 → s.holds (s.ip + 1) op1 →
      s.unreadable (s.ip + 2) →
      step s = .next { s with status := .faulted (.addressError .fetch (s.ip + 2) s.ip) })

/-- 10_state.md R39, R41, 60_exceptions.md R205: a step is defined for a Running core only; Halted and Faulted are final. That
the model's step answers a fault by name there is the model's choice (log 10). -/
def Obligations.OnlyRunningCoresStep : Prop :=
  ∀ s : State,
    (s.status = .idle → step s = .fault .stepWhileIdle) ∧
    (s.status = .halted → step s = .fault .stepAfterHalt) ∧
    (∀ e, s.status = .faulted e → step s = .fault (.stepAfterFault e)) ∧
    (s.status = .running → ∃ t, step s = .next t)

/-- 60_exceptions.md R200, R203, R215, 70_reset_and_hazards.md R234: executing any instruction in any state answers a next
state, and a step from Running leads to Running, Halted or Faulted, never to Idle. -/
def Obligations.EveryInstructionExecutes : Prop :=
  (∀ (i : Instr) (s : State), ∃ t, exec i s = .next t ∧ (t.status = s.status ∨ t.status = .halted ∨ ∃ e, t.status = .faulted e)) ∧
  (∀ s t : State, step s = .next t → t.status ≠ .idle)

/-- 30_encoding.md R78: after an instruction that is neither a jump nor HALT and that raised nothing, ip has advanced past the
opcode byte and the operand bytes; the new ip is not checked. -/
def Obligations.AdvancePastOperands : Prop :=
  ∀ (i : Instr) (s t : State), i.op.family ≠ .C → i ≠ .halt → exec i s = .next t → s.completed → t.completed →
    t.ip = s.ip + 1 + i.op.operandCount

/-- 60_exceptions.md R204: a step that faults changes status alone; the recorded ip is the faulting instruction's (the spec's
decision D22; log 26). -/
def Obligations.FaultsArePrecise : Prop :=
  ∀ (s t : State) (e : FaultCause), step s = .next t → t.status = .faulted e →
    t = { s with status := .faulted e } ∧ e.ip = s.ip

/-- 60_exceptions.md R201: an executing instruction raises only the faults of its row of the table. -/
def Obligations.FaultsByInstruction : Prop :=
  ∀ (i : Instr) (s t : State) (e : FaultCause), s.completed → exec i s = .next t → t.status = .faulted e →
    mayRaise s.cfg.movmiSrc i e = true

/-- 10_state.md R21: a register id above 3 raises AddressError(Register, v) when the instruction executes, the first such
operand in operand order, before any other fault of its execution (60_exceptions.md R206; the spec's decisions D20, D25; log
13, 30); and nothing else raises it. -/
def Obligations.RegisterIdsAreChecked : Prop :=
  ∀ (i : Instr) (s : State),
    (∀ v, (i.regOperands s.cfg.movmiSrc).find? (fun r => decide (3 < r.toNat)) = some v →
      Faults i s (.addressError .register (zext8 v) s.ip)) ∧
    (s.completed → ∀ v a, Faults i s (.addressError .register v a) →
      a = s.ip ∧ ∃ r ∈ i.regOperands s.cfg.movmiSrc, 3 < r.toNat ∧ zext8 r = v)

/-- 46_halt.md R180, 70_reset_and_hazards.md R234: a step that halts found 00 at ip and leaves ip there, all else unchanged
(D21; log 11). -/
def Obligations.HaltStaysAtItsByte : Prop :=
  ∀ s t : State, step s = .next t → t.status = .halted →
    s.holds s.ip 0x00 ∧ t = { s with status := .halted }

/-! ## Reset and the host's operations -/

/-- 10_state.md R24, R33, R35, R44: the registers, ip and sp right after reset, for the reset run() begins with from any state
and for State.reset. (The flags' value at reset, the spec's decision D17, is in FlagsAreSticky.) -/
def Obligations.ResetState : Prop :=
  (∀ s : State, (∀ k : Fin 4, s.beginRun.x[k] = 0x00) ∧ s.beginRun.ip = 0 ∧ s.beginRun.sp = 0xBF ∧
    s.beginRun.status = .running) ∧
  (∀ k : Fin 4, State.reset.x[k] = 0x00) ∧ State.reset.ip = 0 ∧ State.reset.sp = 0xBF ∧ State.reset.status = .running

/-- 20_memory.md R58, R65: load installs an image of at most MEM_SIZE bytes at 0, the cells beyond it as IMAGE_FILL says, and
refuses a longer one (the spec's decisions D13, D30; log 7, 14); run() leaves memory as it was (D24; log 27). -/
def Obligations.LoadInstallsImage : Prop :=
  ∀ (s : State) (image : List Byte),
    (image.length ≤ s.cfg.memSize → ∃ t, s.load image = .next t ∧ t.status = .idle ∧ t.cfg = s.cfg ∧
      (∀ (k : Nat) (h : k < image.length), t.cell k = some image[k]) ∧
      (∀ a, image.length ≤ a → t.cell a = (match s.cfg.imageFill with
        | .none => none
        | .zero => some 0x00))) ∧
    (s.cfg.memSize < image.length → s.load image = .refused (.imageTooLong image.length)) ∧
    s.beginRun.mem = s.mem

/-- 70_reset_and_hazards.md R234, 60_exceptions.md R210, R215: a run that has ended stays ended, the same way, under any higher
limit; its state shows the way it ended. A STEP_LIMIT only cuts a run short (the spec's decision D23; log 28): what halts or
faults under one does so without one, and a run cut short was Running and says nothing. -/
def Obligations.RunEndsAreFinal : Prop :=
  (∀ (n k : Nat) (s t : State),
    (State.continueRun n s = .halted t → t.status = .halted ∧ State.continueRun (n + k) s = .halted t) ∧
    (∀ e, State.continueRun n s = .faulted e t → t.status = .faulted e ∧ State.continueRun (n + k) s = .faulted e t)) ∧
  (∀ (n : Nat) (s t : State),
    (s.runsTo (.halted t) (some n) → s.runsTo (.halted t)) ∧
    (∀ e, s.runsTo (.faulted e t) (some n) → s.runsTo (.faulted e t)) ∧
    (s.runsTo (.cutShort t) (some n) → t.status = .running) ∧
    ¬ s.runsTo .endless (some n))

/-- 70_reset_and_hazards.md R234, R230, 60_exceptions.md R215: run() without a STEP_LIMIT, the default (the spec's decision D23;
log 28), ends in exactly one of three ways. Halted: a step of the run executed the 00 at its ip, and the final state is the
state at that step with status Halted (ip stays: the spec's decision D21; log 11). Faulted(e): the final state is the state
before a step of the run, with the fault recorded (the spec's decision D22; log 26). Endless: infinitely many steps from the
reset, each leaving status Running. -/
def Obligations.RunEndsInExactlyOneWay : Prop :=
  ∀ s : State,
    (∃ o, s.runsTo o ∧ ∀ o', s.runsTo o' → o' = o) ∧
    (∀ t, ¬ s.runsTo (.cutShort t)) ∧
    (∀ t, s.runsTo (.halted t) → ∃ n u, s.run n = .unfinished u ∧ u.status = .running ∧ u.holds u.ip 0x00 ∧
      step u = .next t ∧ t = { u with status := .halted }) ∧
    (∀ e t, s.runsTo (.faulted e t) → ∃ n u, s.run n = .unfinished u ∧ u.status = .running ∧
      step u = .next t ∧ t = { u with status := .faulted e }) ∧
    (s.runsTo .endless ↔ ∃ f : Nat → State, f 0 = s.beginRun ∧
      ∀ n, step (f n) = .next (f (n + 1)) ∧ (f (n + 1)).status = .running)

/-- 10_state.md R30: a snapshot's flags byte has entry k at bit 7-k, so Z is 0x02, V is 0x04 and N is 0x08 (D18; log 22). -/
def Obligations.FlagsByteOfSnapshot : Prop :=
  ∀ s : State, (∀ k : Fin 8, s.snapshot.flags.getLsbD (7 - (k : Nat)) = s.F[k]) ∧
    (s.F[6] = true ↔ s.snapshot.flags &&& 0x02 ≠ 0) ∧ (s.F[5] = true ↔ s.snapshot.flags &&& 0x04 ≠ 0) ∧
    (s.F[4] = true ↔ s.snapshot.flags &&& 0x08 ≠ 0)

/-- 20_memory.md R51, 00_scope.md R8: an address string with the prefix 0x or 0X stands for the same integer as without, and a
byte's two-digit text reads back as the byte, by both readers. -/
def Obligations.AddressTextNormalizes : Prop :=
  (∀ cs : List Char, (∀ c ∈ cs, hexValue c ≠ none) →
    addressOfText ('0' :: 'x' :: cs) = addressOfText cs ∧ addressOfText ('0' :: 'X' :: cs) = addressOfText cs) ∧
  (∀ b : Byte, byteOfText (byteText b) = some b ∧ addressOfText (byteText b) = some b.toNat ∧
    addressOfText ('0' :: 'x' :: byteText b) = some b.toNat)

/-! ## Memory, ranges and flags -/

/-- 20_memory.md R52: MemRead returns the byte of a cell that holds one and raises AddressError(kind, a) otherwise. -/
def Obligations.MemReadRule : Prop :=
  ∀ (kind : AccessKind) (s : State) (a : Int),
    (∀ v, s.holds a v → memRead kind s a = .ok v) ∧
    (s.unreadable a → memRead kind s a = .error (.addressError kind a s.ip))

/-- 20_memory.md R53: MemWrite stores the byte in its cell, initialised or not, leaves every other cell and all other state
alone, and raises AddressError(kind, a) outside the memory. -/
def Obligations.MemWriteRule : Prop :=
  ∀ (kind : AccessKind) (s : State) (a : Int) (v : Byte),
    (0 ≤ a → a < s.cfg.memSize → ∃ m, memWrite kind s a v = .ok { s with mem := m } ∧
      ({ s with mem := m } : State).cell a.toNat = some v ∧
      (∀ b : Nat, (b : Int) ≠ a → ({ s with mem := m } : State).cell b = s.cell b)) ∧
    (a < 0 ∨ (s.cfg.memSize : Int) ≤ a → memWrite kind s a v = .error (.addressError kind a s.ip))

/-- 40_alu_register.md R100: commit8, under both values of ARITH_RANGE (the names of the two faults are the spec's decision
D33; log 13). -/
def Obligations.CommitEightBits : Prop :=
  ∀ (s : State) (r : Int),
    (0 ≤ r → r ≤ 255 → ∃ v, zext8 v = r ∧ commit8 s r = .ok v) ∧
    (s.cfg.arithRange = .wrap → ∃ v, zext8 v = r % 256 ∧ commit8 s r = .ok v) ∧
    (s.cfg.arithRange = .fault → 255 < r → commit8 s r = .error (.arithmeticOverflow s.ip r)) ∧
    (s.cfg.arithRange = .fault → r < 0 → commit8 s r = .error (.arithmeticUnderflow s.ip r))

/-- 40_alu_register.md R101: the law of ARITH_FLAGS, the reference instance (the spec's decision D5; log 4), and that the
model shuts out no function that obeys the law: any such result `G` on `F` is one the free value can give. -/
def Obligations.ArithFlagsLaw : Prop :=
  (∀ (sel : ArithFlags) (op : ArithOp) (a b r : Int) (F : Vector Bool 8) (k : Fin 8),
    (F[k] = true → (arithFlags sel op a b r F)[k] = true) ∧
    (k ≠ 4 → k ≠ 5 → k ≠ 6 → (arithFlags sel op a b r F)[k] = F[k])) ∧
  (∀ (op : ArithOp) (a b r : Int) (F : Vector Bool 8), arithFlags .referenceNone op a b r F = F) ∧
  (∀ F G : Vector Bool 8, (∀ k : Fin 8, F[k] = true → G[k] = true) →
    (∀ k : Fin 8, k ≠ 4 → k ≠ 5 → k ≠ 6 → G[k] = F[k]) → setNVZ F G = G)

/-- 44_compare.md R160: the three-way compare on unsigned bytes (the spec's decision D34; log 24): N on less, Z on equal,
nothing on greater, nothing cleared, no other entry written. -/
def Obligations.CompareSetsFlags : Prop :=
  ∀ (a b : Byte) (F : Vector Bool 8),
    (a.toNat < b.toNat → cmpFlags (zext8 a) (zext8 b) F = F.set 4 true) ∧
    (a = b → cmpFlags (zext8 a) (zext8 b) F = F.set 6 true) ∧
    (b.toNat < a.toNat → cmpFlags (zext8 a) (zext8 b) F = F)

/-! ## What each instruction does -/

/-- 40_alu_register.md R104, R105, R106: ADD, SUB and MUL of registers. -/
def Obligations.RegisterAddSubMul : Prop :=
  ∀ (r q : RegId) (s : State),
    (encode OpcodeMap.standard (.addRR r q) = [0xA0, r, q] ∧ ChecksRegs (.addRR r q) s r q ∧
      ∀ (hr : r.toNat < 4) (hq : q.toNat < 4),
        CommitsResult (.addRR r q) s ⟨r.toNat, hr⟩ .add (zext8 s.x[r.toNat]) (zext8 s.x[q.toNat])
          (zext8 s.x[r.toNat] + zext8 s.x[q.toNat]) 3) ∧
    (encode OpcodeMap.standard (.subRR r q) = [0xA1, r, q] ∧ ChecksRegs (.subRR r q) s r q ∧
      ∀ (hr : r.toNat < 4) (hq : q.toNat < 4),
        CommitsResult (.subRR r q) s ⟨r.toNat, hr⟩ .sub (zext8 s.x[r.toNat]) (zext8 s.x[q.toNat])
          (zext8 s.x[r.toNat] - zext8 s.x[q.toNat]) 3) ∧
    (encode OpcodeMap.standard (.mulRR r q) = [0xA2, r, q] ∧ ChecksRegs (.mulRR r q) s r q ∧
      ∀ (hr : r.toNat < 4) (hq : q.toNat < 4),
        CommitsResult (.mulRR r q) s ⟨r.toNat, hr⟩ .mul (zext8 s.x[r.toNat]) (zext8 s.x[q.toNat])
          (zext8 s.x[r.toNat] * zext8 s.x[q.toNat]) 3)

/-- 40_alu_register.md R107, R110: DIV and MOD of registers, on unsigned bytes; a zero divisor raises DivideByZero, and no
other result is out of range. -/
def Obligations.RegisterDivMod : Prop :=
  ∀ (r q : RegId) (s : State),
    (encode OpcodeMap.standard (.divRR r q) = [0xA3, r, q] ∧ ChecksRegs (.divRR r q) s r q ∧
      ∀ (hr : r.toNat < 4) (hq : q.toNat < 4),
        (s.x[q.toNat] = 0 → Faults (.divRR r q) s (.divideByZero s.ip)) ∧
        (s.x[q.toNat] ≠ 0 → CommitsArith (.divRR r q) s ⟨r.toNat, hr⟩ (s.x[r.toNat] / s.x[q.toNat]) .div
          (zext8 s.x[r.toNat]) (zext8 s.x[q.toNat]) (s.x[r.toNat].toNat / s.x[q.toNat].toNat : Nat) 3)) ∧
    (encode OpcodeMap.standard (.modRR r q) = [0xA6, r, q] ∧ ChecksRegs (.modRR r q) s r q ∧
      ∀ (hr : r.toNat < 4) (hq : q.toNat < 4),
        (s.x[q.toNat] = 0 → Faults (.modRR r q) s (.divideByZero s.ip)) ∧
        (s.x[q.toNat] ≠ 0 → CommitsArith (.modRR r q) s ⟨r.toNat, hr⟩ (s.x[r.toNat] % s.x[q.toNat]) .mod
          (zext8 s.x[r.toNat]) (zext8 s.x[q.toNat]) (s.x[r.toNat].toNat % s.x[q.toNat].toNat : Nat) 3))

/-- 40_alu_register.md R108, R109: INC and DEC. -/
def Obligations.IncrementDecrement : Prop :=
  ∀ (r : RegId) (s : State),
    (encode OpcodeMap.standard (.incR r) = [0xA4, r] ∧ ChecksReg (.incR r) s r ∧
      ∀ hr : r.toNat < 4,
        CommitsResult (.incR r) s ⟨r.toNat, hr⟩ .inc (zext8 s.x[r.toNat]) 1 (zext8 s.x[r.toNat] + 1) 2) ∧
    (encode OpcodeMap.standard (.decR r) = [0xA5, r] ∧ ChecksReg (.decR r) s r ∧
      ∀ hr : r.toNat < 4,
        CommitsResult (.decR r) s ⟨r.toNat, hr⟩ .dec (zext8 s.x[r.toNat]) 1 (zext8 s.x[r.toNat] - 1) 2)

/-- 41_alu_immediate.md R120, R121, R122, R125: ADD, SUB and MUL of a register and a literal; the literal is never checked. -/
def Obligations.ImmediateAddSubMul : Prop :=
  ∀ (r : RegId) (i : Literal) (s : State),
    (encode OpcodeMap.standard (.addRI r i) = [0xB0, r, i] ∧ ChecksReg (.addRI r i) s r ∧
      ∀ hr : r.toNat < 4,
        CommitsResult (.addRI r i) s ⟨r.toNat, hr⟩ .add (zext8 s.x[r.toNat]) (zext8 i)
          (zext8 s.x[r.toNat] + zext8 i) 3) ∧
    (encode OpcodeMap.standard (.subRI r i) = [0xB1, r, i] ∧ ChecksReg (.subRI r i) s r ∧
      ∀ hr : r.toNat < 4,
        CommitsResult (.subRI r i) s ⟨r.toNat, hr⟩ .sub (zext8 s.x[r.toNat]) (zext8 i)
          (zext8 s.x[r.toNat] - zext8 i) 3) ∧
    (encode OpcodeMap.standard (.mulRI r i) = [0xB2, r, i] ∧ ChecksReg (.mulRI r i) s r ∧
      ∀ hr : r.toNat < 4,
        CommitsResult (.mulRI r i) s ⟨r.toNat, hr⟩ .mul (zext8 s.x[r.toNat]) (zext8 i)
          (zext8 s.x[r.toNat] * zext8 i) 3)

/-- 41_alu_immediate.md R123, R124: DIV and MOD of a register by a literal; the register check comes before the divide
check. -/
def Obligations.ImmediateDivMod : Prop :=
  ∀ (r : RegId) (i : Literal) (s : State),
    (encode OpcodeMap.standard (.divRI r i) = [0xB6, r, i] ∧ ChecksReg (.divRI r i) s r ∧
      ∀ hr : r.toNat < 4,
        (i = 0 → Faults (.divRI r i) s (.divideByZero s.ip)) ∧
        (i ≠ 0 → CommitsArith (.divRI r i) s ⟨r.toNat, hr⟩ (s.x[r.toNat] / i) .div
          (zext8 s.x[r.toNat]) (zext8 i) (s.x[r.toNat].toNat / i.toNat : Nat) 3)) ∧
    (encode OpcodeMap.standard (.modRI r i) = [0xB7, r, i] ∧ ChecksReg (.modRI r i) s r ∧
      ∀ hr : r.toNat < 4,
        (i = 0 → Faults (.modRI r i) s (.divideByZero s.ip)) ∧
        (i ≠ 0 → CommitsArith (.modRI r i) s ⟨r.toNat, hr⟩ (s.x[r.toNat] % i) .mod
          (zext8 s.x[r.toNat]) (zext8 i) (s.x[r.toNat].toNat % i.toNat : Nat) 3))

/-- 42_control.md R133: JMP under both policies. -/
def Obligations.JumpUnconditional : Prop :=
  ∀ (d : Offset) (s : State),
    encode OpcodeMap.standard (.jmp d) = [0xC0, d] ∧
    (s.cfg.jumpPolicy = .skip → exec (.jmp d) s = .next { s with ip := s.ip + sext8 d + 1 }) ∧
    (s.cfg.jumpPolicy = .flat → exec (.jmp d) s = .next { s with ip := s.ip + sext8 d + 3 }) ∧
    BadTargetFaultsNext (.jmp d) s

/-- 42_control.md R134-R139: the six conditional jumps, taken and not taken, under both policies. -/
def Obligations.JumpsConditional : Prop :=
  ∀ (d : Offset) (s : State),
    (encode OpcodeMap.standard (.jz d) = [0xC1, d] ∧ JumpsWhen (.jz d) s d (s.F[6] = true)) ∧
    (encode OpcodeMap.standard (.jnz d) = [0xC2, d] ∧ JumpsWhen (.jnz d) s d (s.F[6] = false)) ∧
    (encode OpcodeMap.standard (.js d) = [0xC3, d] ∧ JumpsWhen (.js d) s d (s.F[4] = true)) ∧
    (encode OpcodeMap.standard (.jns d) = [0xC4, d] ∧ JumpsWhen (.jns d) s d (s.F[4] = false)) ∧
    (encode OpcodeMap.standard (.jo d) = [0xC5, d] ∧ JumpsWhen (.jo d) s d (s.F[5] = true)) ∧
    (encode OpcodeMap.standard (.jno d) = [0xC6, d] ∧ JumpsWhen (.jno d) s d (s.F[5] = false))

/-- 43_move.md R150: MOV r,i. -/
def Obligations.MoveImmediate : Prop :=
  ∀ (r : RegId) (i : Literal) (s : State),
    encode OpcodeMap.standard (.movRI r i) = [0xD0, r, i] ∧ ChecksReg (.movRI r i) s r ∧
    ∀ hr : r.toNat < 4, exec (.movRI r i) s = .next { s with x := s.x.set r.toNat i hr, ip := s.ip + 3 }

/-- 43_move.md R151: MOV r,[a]. -/
def Obligations.MoveFromMemory : Prop :=
  ∀ (r : RegId) (a : Address) (s : State),
    encode OpcodeMap.standard (.movRA r a) = [0xD1, r, a] ∧ ChecksReg (.movRA r a) s r ∧
    ∀ hr : r.toNat < 4,
      (∀ v, s.holds (zext8 a) v → exec (.movRA r a) s = .next { s with x := s.x.set r.toNat v hr, ip := s.ip + 3 }) ∧
      (s.unreadable (zext8 a) → Faults (.movRA r a) s (.addressError .data (zext8 a) s.ip))

/-- 43_move.md R152: MOV [a],i under both values of MOVMI_SRC (D7; log 6). -/
def Obligations.MoveImmediateToMemory : Prop :=
  ∀ (a : Address) (i : Literal) (s : State),
    encode OpcodeMap.standard (.movAI a i) = [0xD2, a, i] ∧
    (s.cfg.movmiSrc = .literal →
      (zext8 a < s.cfg.memSize → exec (.movAI a i) s =
        .next { s with mem := Memory.write s.cfg.imageFill s.mem a.toNat i, ip := s.ip + 3 }) ∧
      ((s.cfg.memSize : Int) ≤ zext8 a → Faults (.movAI a i) s (.addressError .data (zext8 a) s.ip))) ∧
    (s.cfg.movmiSrc = .register → ChecksReg (.movAI a i) s i ∧
      ∀ hi : i.toNat < 4,
        (zext8 a < s.cfg.memSize → exec (.movAI a i) s =
          .next { s with mem := Memory.write s.cfg.imageFill s.mem a.toNat s.x[i.toNat], ip := s.ip + 3 }) ∧
        ((s.cfg.memSize : Int) ≤ zext8 a → Faults (.movAI a i) s (.addressError .data (zext8 a) s.ip)))

/-- 43_move.md R153: MOV r,[s]; the address is read before the register is written. -/
def Obligations.MoveIndirectToRegister : Prop :=
  ∀ (r q : RegId) (s : State),
    encode OpcodeMap.standard (.movRM r q) = [0xD3, r, q] ∧ ChecksRegs (.movRM r q) s r q ∧
    ∀ (hr : r.toNat < 4) (hq : q.toNat < 4),
      (∀ v, s.holds (zext8 s.x[q.toNat]) v →
        exec (.movRM r q) s = .next { s with x := s.x.set r.toNat v hr, ip := s.ip + 3 }) ∧
      (s.unreadable (zext8 s.x[q.toNat]) → Faults (.movRM r q) s (.addressError .data (zext8 s.x[q.toNat]) s.ip))

/-- 43_move.md R154: MOV [r],s. -/
def Obligations.MoveRegisterToIndirect : Prop :=
  ∀ (r q : RegId) (s : State),
    encode OpcodeMap.standard (.movMR r q) = [0xD4, r, q] ∧ ChecksRegs (.movMR r q) s r q ∧
    ∀ (hr : r.toNat < 4) (hq : q.toNat < 4),
      (zext8 s.x[r.toNat] < s.cfg.memSize → exec (.movMR r q) s =
        .next { s with mem := Memory.write s.cfg.imageFill s.mem s.x[r.toNat].toNat s.x[q.toNat], ip := s.ip + 3 }) ∧
      ((s.cfg.memSize : Int) ≤ zext8 s.x[r.toNat] →
        Faults (.movMR r q) s (.addressError .data (zext8 s.x[r.toNat]) s.ip))

/-- 44_compare.md R161, R162, R163: the three compares, each with its flags. -/
def Obligations.CompareInstructions : Prop :=
  ∀ (r q : RegId) (b : Byte) (s : State),
    (encode OpcodeMap.standard (.cmpRR r q) = [0xDA, r, q] ∧ ChecksRegs (.cmpRR r q) s r q ∧
      ∀ (hr : r.toNat < 4) (hq : q.toNat < 4), Compares (.cmpRR r q) s s.x[r.toNat] s.x[q.toNat]) ∧
    (encode OpcodeMap.standard (.cmpRI r b) = [0xDB, r, b] ∧ ChecksReg (.cmpRI r b) s r ∧
      ∀ hr : r.toNat < 4, Compares (.cmpRI r b) s s.x[r.toNat] b) ∧
    (encode OpcodeMap.standard (.cmpRA r b) = [0xDC, r, b] ∧ ChecksReg (.cmpRA r b) s r ∧
      ∀ hr : r.toNat < 4,
        (∀ v, s.holds (zext8 b) v → Compares (.cmpRA r b) s s.x[r.toNat] v) ∧
        (s.unreadable (zext8 b) → Faults (.cmpRA r b) s (.addressError .data (zext8 b) s.ip)))

/-- 45_stack.md R170: PUSH. -/
def Obligations.PushRegister : Prop :=
  ∀ (r : RegId) (s : State),
    encode OpcodeMap.standard (.push r) = [0xE0, r] ∧ ChecksReg (.push r) s r ∧
    ∀ hr : r.toNat < 4,
      (0 ≤ s.sp → s.sp < s.cfg.memSize → exec (.push r) s = .next { s with
        mem := Memory.write s.cfg.imageFill s.mem s.sp.toNat s.x[r.toNat]
        sp := s.sp - 1
        ip := s.ip + 2 }) ∧
      (s.sp < 0 ∨ (s.cfg.memSize : Int) ≤ s.sp → Faults (.push r) s (.addressError .stack s.sp s.ip))

/-- 45_stack.md R171: POP, which increments sp and then reads (the spec's decisions D14, D15; log 20). -/
def Obligations.PopRegister : Prop :=
  ∀ (r : RegId) (s : State),
    encode OpcodeMap.standard (.pop r) = [0xE1, r] ∧ ChecksReg (.pop r) s r ∧
    ∀ hr : r.toNat < 4,
      (∀ v, s.holds (s.sp + 1) v → exec (.pop r) s = .next { s with
        x := s.x.set r.toNat v hr
        sp := s.sp + 1
        ip := s.ip + 2 }) ∧
      (s.unreadable (s.sp + 1) → Faults (.pop r) s (.addressError .stack (s.sp + 1) s.ip))

/-- 46_halt.md R180: HALT in any state leaves ip (the spec's decision D21; log 11); from Halted no step is defined, where the
model's step answers a fault by name (log 10). -/
def Obligations.HaltInstruction : Prop :=
  ∀ s : State, encode OpcodeMap.standard .halt = [0x00] ∧ exec .halt s = .next { s with status := .halted } ∧
    step { s with status := .halted } = .fault .stepAfterHalt

/-! ## What each instruction leaves alone -/

/-- The frame of arithmetic (10_state.md R23, R26, R28, R34): whatever next state an A* or B* instruction gives, only the
destination register, the flag entries 4, 5 and 6 (set, not cleared), ip and status can differ. -/
def Obligations.FrameOfArithmetic : Prop :=
  ∀ (r q : RegId) (s t : State),
    ∀ i ∈ ([.addRR r q, .subRR r q, .mulRR r q, .divRR r q, .modRR r q, .incR r, .decR r,
      .addRI r q, .subRI r q, .mulRI r q, .divRI r q, .modRI r q] : List Instr),
    exec i s = .next t →
      (∀ k : Fin 4, (k : Nat) ≠ r.toNat → t.x[k] = s.x[k]) ∧
      (∀ k : Fin 8, k ≠ 4 → k ≠ 5 → k ≠ 6 → t.F[k] = s.F[k]) ∧
      (∀ k : Fin 8, s.F[k] = true → t.F[k] = true) ∧
      t.sp = s.sp ∧ (∀ a : Nat, t.cell a = s.cell a) ∧ t.cfg = s.cfg ∧
      (t.status = s.status ∨ ∃ e, t.status = .faulted e)

/-- The frame of the moves into a register (43_move.md R155, 10_state.md R23): only the destination register, ip and status can
differ. -/
def Obligations.FrameOfMovesToRegister : Prop :=
  ∀ (r q : RegId) (s t : State), ∀ i ∈ ([.movRI r q, .movRA r q, .movRM r q] : List Instr), exec i s = .next t →
    (∀ k : Fin 4, (k : Nat) ≠ r.toNat → t.x[k] = s.x[k]) ∧ t.F = s.F ∧ t.sp = s.sp ∧
    (∀ a : Nat, t.cell a = s.cell a) ∧ t.cfg = s.cfg ∧ (t.status = s.status ∨ ∃ e, t.status = .faulted e)

/-- The frame of the moves into memory (43_move.md R155, 10_state.md R23): only the one byte at the address stored to, ip and
status can differ. D2 stores at its zero-extended address byte, D4 at the value of its first register. -/
def Obligations.FrameOfStores : Prop :=
  ∀ (s t : State),
    (∀ (a : Address) (i : Literal), exec (.movAI a i) s = .next t →
      (∀ b : Nat, (b : Int) ≠ zext8 a → t.cell b = s.cell b) ∧
      t.x = s.x ∧ t.F = s.F ∧ t.sp = s.sp ∧ t.cfg = s.cfg ∧ (t.status = s.status ∨ ∃ e, t.status = .faulted e)) ∧
    (∀ r q : RegId, exec (.movMR r q) s = .next t →
      (∀ (hr : r.toNat < 4) (b : Nat), (b : Int) ≠ zext8 s.x[r.toNat] → t.cell b = s.cell b) ∧
      (4 ≤ r.toNat → ∀ b : Nat, t.cell b = s.cell b) ∧
      t.x = s.x ∧ t.F = s.F ∧ t.sp = s.sp ∧ t.cfg = s.cfg ∧ (t.status = s.status ∨ ∃ e, t.status = .faulted e))

/-- The frame of the compares, the jumps and HALT (44_compare.md R160, 42_control.md R132, 46_halt.md R180): a compare changes
only entries 4 and 6 of the flags, ip and status; a jump only ip; HALT only status. -/
def Obligations.FrameOfComparesJumpsHalt : Prop :=
  ∀ (s t : State),
    (∀ r q : RegId, ∀ i ∈ ([.cmpRR r q, .cmpRI r q, .cmpRA r q] : List Instr), exec i s = .next t →
      (∀ k : Fin 8, k ≠ 4 → k ≠ 6 → t.F[k] = s.F[k]) ∧ (∀ k : Fin 8, s.F[k] = true → t.F[k] = true) ∧
      t.x = s.x ∧ t.sp = s.sp ∧ (∀ a : Nat, t.cell a = s.cell a) ∧ t.cfg = s.cfg ∧
      (t.status = s.status ∨ ∃ e, t.status = .faulted e)) ∧
    (∀ d : Offset, ∀ i ∈ ([.jmp d, .jz d, .jnz d, .js d, .jns d, .jo d, .jno d] : List Instr), exec i s = .next t →
      t.x = s.x ∧ t.F = s.F ∧ t.sp = s.sp ∧ (∀ a : Nat, t.cell a = s.cell a) ∧ t.cfg = s.cfg ∧ t.status = s.status) ∧
    (exec .halt s = .next t →
      t.x = s.x ∧ t.F = s.F ∧ t.sp = s.sp ∧ t.ip = s.ip ∧ (∀ a : Nat, t.cell a = s.cell a) ∧ t.cfg = s.cfg)

/-- The frame of the stack instructions (45_stack.md R170, R171, 10_state.md R23): PUSH changes only the byte at sp, sp, ip and
status; POP only the destination register, sp, ip and status. -/
def Obligations.FrameOfStack : Prop :=
  ∀ (r : RegId) (s t : State),
    (exec (.push r) s = .next t →
      (∀ b : Nat, (b : Int) ≠ s.sp → t.cell b = s.cell b) ∧
      t.x = s.x ∧ t.F = s.F ∧ t.cfg = s.cfg ∧ (t.status = s.status ∨ ∃ e, t.status = .faulted e)) ∧
    (exec (.pop r) s = .next t →
      (∀ k : Fin 4, (k : Nat) ≠ r.toNat → t.x[k] = s.x[k]) ∧
      t.F = s.F ∧ (∀ a : Nat, t.cell a = s.cell a) ∧ t.cfg = s.cfg ∧
      (t.status = s.status ∨ ∃ e, t.status = .faulted e))

/-! ## Rules of the whole machine -/

/-- 10_state.md R28, R36, R38, 60_exceptions.md R202: every step keeps the invariant: a legal configuration, canonical memory
inside MEM_SIZE, sp in -1..MEM_SIZE-1, the unused flags clear, a fault record that belongs to the state. -/
def Obligations.StepKeepsInvariant : Prop :=
  ∀ s t : State, s.Inv → step s = .next t → t.Inv

/-- The invariant holds right after reset of the core with the default configuration. -/
def Obligations.ResetMeetsInvariant : Prop := State.reset.Inv

/-- 70_reset_and_hazards.md R230, 20_memory.md R58, R65: the host's operations keep the invariant: a core constructed with a
legal configuration has it, and load and the reset of run() keep it. -/
def Obligations.HostKeepsInvariant : Prop :=
  (∀ c : Config, c.wf = true → (State.construct c).Inv) ∧
  (∀ s : State, s.Inv → s.beginRun.Inv) ∧
  (∀ (s t : State) (image : List Byte), s.Inv → s.load image = .next t → t.Inv)

/-- 10_state.md R26, R28: the flags are set and never cleared but by reset; only arithmetic and compares write them; the
unused entries are never written (the spec's decision D31); a fault writes none; reset clears them all (the spec's decision
D17; log 12). -/
def Obligations.FlagsAreSticky : Prop :=
  (∀ s t : State, step s = .next t → ∀ k : Fin 8,
    (s.F[k] = true → t.F[k] = true) ∧ (k ≠ 4 → k ≠ 5 → k ≠ 6 → t.F[k] = s.F[k])) ∧
  (∀ (i : Instr) (s t : State), exec i s = .next t → writesFlags i = false → t.F = s.F) ∧
  (∀ (s t : State) (e : FaultCause), step s = .next t → t.status = .faulted e → t.F = s.F) ∧
  (∀ (s : State) (k : Fin 8), s.beginRun.F[k] = false)

/-- 10_state.md R27: only the conditional jumps read the flags, each the one entry it names: for every other instruction, what
happens to everything but the flags is the same whatever the flags are. -/
def Obligations.FlagsAreReadByConditionalJumpsOnly : Prop :=
  (∀ (i : Instr) (s : State) (f : Vector Bool 8), readsFlags i = false →
    Result.map (fun t => { t with F := f }) (exec i { s with F := f }) = Result.map (fun t => { t with F := f }) (exec i s)) ∧
  (∀ (d : Offset) (s : State) (f : Vector Bool 8),
    (f[6] = s.F[6] → ∀ i ∈ ([.jz d, .jnz d] : List Instr),
      exec i { s with F := f } = Result.map (fun t => { t with F := f }) (exec i s)) ∧
    (f[4] = s.F[4] → ∀ i ∈ ([.js d, .jns d] : List Instr),
      exec i { s with F := f } = Result.map (fun t => { t with F := f }) (exec i s)) ∧
    (f[5] = s.F[5] → ∀ i ∈ ([.jo d, .jno d] : List Instr),
      exec i { s with F := f } = Result.map (fun t => { t with F := f }) (exec i s)))

/-- 10_state.md R23, a table the spec derives from the instruction rules: an instruction writes no register but the one its
row names, and the value of a register its row does not read has no influence: not on any other part of the outcome, nor on
the value the instruction writes there. -/
def Obligations.RegistersReadAndWritten : Prop :=
  ∀ (i : Instr) (s : State) (k : Fin 4),
    (∀ t, exec i s = .next t → (∀ r, writesReg i = some r → r.toNat ≠ k) → t.x[k] = s.x[k]) ∧
    (∀ v : Byte, (∀ r ∈ readsRegs s.cfg.movmiSrc i, r.toNat ≠ k) →
      Result.map (fun t => t.setReg k 0) (exec i (s.setReg k v)) = Result.map (fun t => t.setReg k 0) (exec i s) ∧
      ∀ r t t', writesReg i = some r → r.toNat = k → s.completed → exec i s = .next t → exec i (s.setReg k v) = .next t' →
        t.completed → t'.x[k] = t.x[k])

/-- 10_state.md R34: only PUSH and POP read or write sp: any other instruction does the same whatever sp is, and leaves it;
PUSH that completes decrements it and POP increments it. -/
def Obligations.OnlyPushPopUseSp : Prop :=
  (∀ (i : Instr) (s : State) (p : Int), usesStack i = false →
    exec i { s with sp := p } = Result.map (fun t => { t with sp := p }) (exec i s)) ∧
  (∀ (r : RegId) (s t : State), s.completed → exec (.push r) s = .next t → t.completed → t.sp = s.sp - 1) ∧
  (∀ (r : RegId) (s t : State), s.completed → exec (.pop r) s = .next t → t.completed → t.sp = s.sp + 1)

/-- 10_state.md R40: the opcode table and every other parameter stay as they were constructed, through steps, loads and
runs. -/
def Obligations.ConfigurationIsImmutable : Prop :=
  (∀ s t : State, step s = .next t → t.cfg = s.cfg) ∧
  (∀ (s t : State) (image : List Byte), s.load image = .next t → t.cfg = s.cfg) ∧
  (∀ s : State, s.beginRun.cfg = s.cfg)

/-- 20_memory.md R63: a store is seen by the next fetch: the byte stored by D2, D4 or PUSH is what a fetch of its cell reads in
the state after; so a 00 stored at ip + 3 halts the next step (derived in R63;
the spec's decision D28; log 27). -/
def Obligations.StoreIsSeenByNextFetch : Prop :=
  (∀ (a : Address) (i : Literal) (s t : State), s.completed → s.cfg.movmiSrc = .literal →
    exec (.movAI a i) s = .next t → t.completed → memRead .fetch t (zext8 a) = .ok i) ∧
  (∀ (r q : RegId) (s t : State) (hr : r.toNat < 4) (hq : q.toNat < 4), s.completed →
    exec (.movMR r q) s = .next t → t.completed → memRead .fetch t (zext8 s.x[r.toNat]) = .ok s.x[q.toNat]) ∧
  (∀ (r : RegId) (s t : State) (hr : r.toNat < 4), s.completed →
    exec (.push r) s = .next t → t.completed → memRead .fetch t s.sp = .ok s.x[r.toNat]) ∧
  (∀ (a : Address) (s t : State), s.status = .running → s.cfg.movmiSrc = .literal → zext8 a = s.ip + 3 →
    exec (.movAI a 0x00) s = .next t → t.completed → step t = .next { t with status := .halted })

/-- 45_stack.md R172, derived there from R170 and R171: POP after PUSH gives the value pushed and sp back, the cell keeping
it; and pushes and pops nest, last in first out. -/
def Obligations.PushThenPop : Prop :=
  (∀ (s : State) (r q : RegId) (hr : r.toNat < 4) (hq : q.toNat < 4), 0 ≤ s.sp → s.sp < s.cfg.memSize →
    ∃ t u, exec (.push r) s = .next t ∧ exec (.pop q) t = .next u ∧
      u.x = s.x.set q.toNat s.x[r.toNat] hq ∧ u.sp = s.sp ∧ u.holds s.sp s.x[r.toNat]) ∧
  (∀ (s : State) (r r' q q' : RegId) (hr : r.toNat < 4) (hr' : r'.toNat < 4) (hq : q.toNat < 4) (hq' : q'.toNat < 4),
    1 ≤ s.sp → s.sp < s.cfg.memSize →
    ∃ t u v w, exec (.push r) s = .next t ∧ exec (.push r') t = .next u ∧
      exec (.pop q) u = .next v ∧ exec (.pop q') v = .next w ∧
      w.x = (s.x.set q.toNat s.x[r'.toNat] hq).set q'.toNat s.x[r.toNat] hq' ∧ w.sp = s.sp)

/-- 42_control.md R133, 60_exceptions.md R215: a JMP of offset FF at ip, under skip, leads to the very same state, so the run
never ends: it is kept as an endless run, no fault and no halt, whatever the number of steps. -/
def Obligations.JumpToItselfNeverEnds : Prop :=
  ∀ s : State, s.status = .running → s.cfg.opcodes.wf = true → s.cfg.jumpPolicy = .skip →
    s.holdsBytes s.ip [s.cfg.opcodes.byteOf .jmp, 0xFF] →
    step s = .next s ∧ (∀ n, State.continueRun n s = .unfinished s) ∧ State.continuesTo defaultStepLimit s .endless ∧
    ∀ o, State.continuesTo defaultStepLimit s o → o = .endless
end

