-- ==== Sys2Proof/Laws/State.lean ====
section
/-! SUPPORT. One lemma per field per update of State, each true by rfl, so that no proof unfolds a record update; and what the
reads of memory see of an update that leaves memory alone. -/

namespace Sys2Proof.Machine

variable (s : State)

@[simp] theorem State.setReg_cfg (k : Fin 4) (v : Byte) : (s.setReg k v).cfg = s.cfg := rfl
@[simp] theorem State.setReg_x (k : Fin 4) (v : Byte) : (s.setReg k v).x = s.x.set k v := rfl
@[simp] theorem State.setReg_F (k : Fin 4) (v : Byte) : (s.setReg k v).F = s.F := rfl
@[simp] theorem State.setReg_ip (k : Fin 4) (v : Byte) : (s.setReg k v).ip = s.ip := rfl
@[simp] theorem State.setReg_sp (k : Fin 4) (v : Byte) : (s.setReg k v).sp = s.sp := rfl
@[simp] theorem State.setReg_mem (k : Fin 4) (v : Byte) : (s.setReg k v).mem = s.mem := rfl
@[simp] theorem State.setReg_status (k : Fin 4) (v : Byte) : (s.setReg k v).status = s.status := rfl

@[simp] theorem State.setF_cfg (f : Vector Bool 8) : (s.setF f).cfg = s.cfg := rfl
@[simp] theorem State.setF_x (f : Vector Bool 8) : (s.setF f).x = s.x := rfl
@[simp] theorem State.setF_F (f : Vector Bool 8) : (s.setF f).F = f := rfl
@[simp] theorem State.setF_ip (f : Vector Bool 8) : (s.setF f).ip = s.ip := rfl
@[simp] theorem State.setF_sp (f : Vector Bool 8) : (s.setF f).sp = s.sp := rfl
@[simp] theorem State.setF_mem (f : Vector Bool 8) : (s.setF f).mem = s.mem := rfl
@[simp] theorem State.setF_status (f : Vector Bool 8) : (s.setF f).status = s.status := rfl

@[simp] theorem State.setIp_cfg (a : Int) : (s.setIp a).cfg = s.cfg := rfl
@[simp] theorem State.setIp_x (a : Int) : (s.setIp a).x = s.x := rfl
@[simp] theorem State.setIp_F (a : Int) : (s.setIp a).F = s.F := rfl
@[simp] theorem State.setIp_ip (a : Int) : (s.setIp a).ip = a := rfl
@[simp] theorem State.setIp_sp (a : Int) : (s.setIp a).sp = s.sp := rfl
@[simp] theorem State.setIp_mem (a : Int) : (s.setIp a).mem = s.mem := rfl
@[simp] theorem State.setIp_status (a : Int) : (s.setIp a).status = s.status := rfl

@[simp] theorem State.setSp_cfg (a : Int) : (s.setSp a).cfg = s.cfg := rfl
@[simp] theorem State.setSp_x (a : Int) : (s.setSp a).x = s.x := rfl
@[simp] theorem State.setSp_F (a : Int) : (s.setSp a).F = s.F := rfl
@[simp] theorem State.setSp_ip (a : Int) : (s.setSp a).ip = s.ip := rfl
@[simp] theorem State.setSp_sp (a : Int) : (s.setSp a).sp = a := rfl
@[simp] theorem State.setSp_mem (a : Int) : (s.setSp a).mem = s.mem := rfl
@[simp] theorem State.setSp_status (a : Int) : (s.setSp a).status = s.status := rfl

@[simp] theorem State.setMem_cfg (m : Memory) : (s.setMem m).cfg = s.cfg := rfl
@[simp] theorem State.setMem_x (m : Memory) : (s.setMem m).x = s.x := rfl
@[simp] theorem State.setMem_F (m : Memory) : (s.setMem m).F = s.F := rfl
@[simp] theorem State.setMem_ip (m : Memory) : (s.setMem m).ip = s.ip := rfl
@[simp] theorem State.setMem_sp (m : Memory) : (s.setMem m).sp = s.sp := rfl
@[simp] theorem State.setMem_mem (m : Memory) : (s.setMem m).mem = m := rfl
@[simp] theorem State.setMem_status (m : Memory) : (s.setMem m).status = s.status := rfl

@[simp] theorem State.setStatus_cfg (t : Status) : (s.setStatus t).cfg = s.cfg := rfl
@[simp] theorem State.setStatus_x (t : Status) : (s.setStatus t).x = s.x := rfl
@[simp] theorem State.setStatus_F (t : Status) : (s.setStatus t).F = s.F := rfl
@[simp] theorem State.setStatus_ip (t : Status) : (s.setStatus t).ip = s.ip := rfl
@[simp] theorem State.setStatus_sp (t : Status) : (s.setStatus t).sp = s.sp := rfl
@[simp] theorem State.setStatus_mem (t : Status) : (s.setStatus t).mem = s.mem := rfl
@[simp] theorem State.setStatus_status (t : Status) : (s.setStatus t).status = t := rfl

@[simp] theorem State.advance_cfg (n : Nat) : (s.advance n).cfg = s.cfg := rfl
@[simp] theorem State.advance_x (n : Nat) : (s.advance n).x = s.x := rfl
@[simp] theorem State.advance_F (n : Nat) : (s.advance n).F = s.F := rfl
@[simp] theorem State.advance_ip (n : Nat) : (s.advance n).ip = s.ip + 1 + n := rfl
@[simp] theorem State.advance_sp (n : Nat) : (s.advance n).sp = s.sp := rfl
@[simp] theorem State.advance_mem (n : Nat) : (s.advance n).mem = s.mem := rfl
@[simp] theorem State.advance_status (n : Nat) : (s.advance n).status = s.status := rfl

@[simp] theorem State.setReg_cell (k : Fin 4) (v : Byte) (a : Nat) : (s.setReg k v).cell a = s.cell a := rfl
@[simp] theorem State.setReg_inRange (k : Fin 4) (v : Byte) (a : Int) : (s.setReg k v).inRange a = s.inRange a := rfl
@[simp] theorem State.setF_cell (f : Vector Bool 8) (a : Nat) : (s.setF f).cell a = s.cell a := rfl
@[simp] theorem State.setF_inRange (f : Vector Bool 8) (a : Int) : (s.setF f).inRange a = s.inRange a := rfl
@[simp] theorem State.setIp_cell (v : Int) (a : Nat) : (s.setIp v).cell a = s.cell a := rfl
@[simp] theorem State.setIp_inRange (v : Int) (a : Int) : (s.setIp v).inRange a = s.inRange a := rfl
@[simp] theorem State.setSp_cell (v : Int) (a : Nat) : (s.setSp v).cell a = s.cell a := rfl
@[simp] theorem State.setSp_inRange (v : Int) (a : Int) : (s.setSp v).inRange a = s.inRange a := rfl
@[simp] theorem State.setMem_inRange (m : Memory) (a : Int) : (s.setMem m).inRange a = s.inRange a := rfl
@[simp] theorem State.setStatus_cell (t : Status) (a : Nat) : (s.setStatus t).cell a = s.cell a := rfl
@[simp] theorem State.setStatus_inRange (t : Status) (a : Int) : (s.setStatus t).inRange a = s.inRange a := rfl
@[simp] theorem State.advance_cell (n : Nat) (a : Nat) : (s.advance n).cell a = s.cell a := rfl
@[simp] theorem State.advance_inRange (n : Nat) (a : Int) : (s.advance n).inRange a = s.inRange a := rfl

@[simp] theorem State.setMem_cell (m : Memory) (a : Nat) :
    (s.setMem m).cell a = Memory.read s.cfg.imageFill m a := rfl

@[simp] theorem State.beginRun_cfg : s.beginRun.cfg = s.cfg := rfl
@[simp] theorem State.beginRun_x : s.beginRun.x = resetRegs := rfl
@[simp] theorem State.beginRun_F : s.beginRun.F = resetFlags := rfl
@[simp] theorem State.beginRun_ip : s.beginRun.ip = resetIp := rfl
@[simp] theorem State.beginRun_sp : s.beginRun.sp = resetSp := rfl
@[simp] theorem State.beginRun_mem : s.beginRun.mem = s.mem := rfl
@[simp] theorem State.beginRun_status : s.beginRun.status = .running := rfl

end Sys2Proof.Machine
end

