-- ==== Sys2Proof/Laws/Flags.lean ====
section
/-! SUPPORT. What the flag computations do to each entry (44_compare.md R160, 40_alu_register.md R101). -/

namespace Sys2Proof.Machine

/-- Each entry of the flags after N, V and Z are set where `w` has them. -/
theorem setNVZ_get (F w : Vector Bool 8) (k : Fin 8) :
    (setNVZ F w)[k] = (F[k] || ((k == 4 || k == 5 || k == 6) && w[k])) := by
  fin_cases k <;> simp [setNVZ]

/-- Each entry of the flags after a compare (44_compare.md R160). -/
theorem cmpFlags_get (a b : Int) (F : Vector Bool 8) (k : Fin 8) :
    (cmpFlags a b F)[k] = (F[k] || (k == 4 && decide (a < b)) || (k == 6 && decide (a = b))) := by
  unfold cmpFlags
  split
  next h =>
    have h1 : a < b := by omega
    have h2 : a ≠ b := by omega
    fin_cases k <;> simp [h1, h2]
  next h =>
    split
    next h' =>
      have h1 : ¬ a < b := by omega
      have h2 : a = b := by omega
      fin_cases k <;> simp [h2]
    next h' =>
      have h1 : ¬ a < b := by omega
      have h2 : a ≠ b := by omega
      simp [h1, h2]

/-- The reference instance sets no flag (40_alu_register.md R101). -/
@[simp] theorem arithFlags_none (op : ArithOp) (a b r : Int) (F : Vector Bool 8) :
    arithFlags .referenceNone op a b r F = F := rfl

/-- Each entry of the flags after an arithmetic instruction under the uninterpreted ARITH_FLAGS. -/
theorem arithFlags_free_get (op : ArithOp) (a b r : Int) (F : Vector Bool 8) (k : Fin 8) :
    (arithFlags .uninterpreted op a b r F)[k] =
      (F[k] || ((k == 4 || k == 5 || k == 6) && (Config.freeArithFlags op a b r F)[k])) :=
  setNVZ_get F _ k

end Sys2Proof.Machine
end

