-- ==== Sys2Proof/Laws/Memory.lean ====
section
/-! SUPPORT. The memory list: what a read sees after a write, and that every operation keeps the canonical form
(20_memory.md R52, R53, R58; 10_state.md R38). -/

namespace Sys2Proof.Machine

theorem Memory.listed_insert_self (m : Memory) (a : Nat) (v : Byte) :
    Memory.listed (Memory.insert m a v) a = some v := by
  induction m with
  | nil => simp [Memory.insert, Memory.listed]
  | cons c rest ih =>
    obtain ⟨b, w⟩ := c
    by_cases h1 : a < b
    · simp [Memory.insert, Memory.listed, h1]
    · by_cases h2 : a = b
      · simp [Memory.insert, Memory.listed, h2]
      · simp [Memory.insert, Memory.listed, h1, h2, Ne.symm h2, ih]

theorem Memory.listed_insert_other (m : Memory) (a b : Nat) (v : Byte) (h : b ≠ a) :
    Memory.listed (Memory.insert m a v) b = Memory.listed m b := by
  induction m with
  | nil => simp [Memory.insert, Memory.listed, Ne.symm h]
  | cons c rest ih =>
    obtain ⟨d, w⟩ := c
    by_cases h1 : a < d
    · simp [Memory.insert, Memory.listed, h1, Ne.symm h]
    · by_cases h2 : a = d
      · subst h2
        simp [Memory.insert, Memory.listed, Ne.symm h]
      · simp [Memory.insert, Memory.listed, h1, h2, ih]

theorem Memory.listed_erase_self (m : Memory) (a : Nat) : Memory.listed (Memory.erase m a) a = none := by
  induction m with
  | nil => rfl
  | cons c rest ih =>
    obtain ⟨b, w⟩ := c
    by_cases h : b = a
    · simpa [Memory.erase, List.filter_cons, h] using ih
    · simpa [Memory.erase, List.filter_cons, Memory.listed, h] using ih

theorem Memory.listed_erase_other (m : Memory) (a b : Nat) (h : b ≠ a) :
    Memory.listed (Memory.erase m a) b = Memory.listed m b := by
  induction m with
  | nil => rfl
  | cons c rest ih =>
    obtain ⟨d, w⟩ := c
    by_cases hd : d = a
    · subst hd
      simpa [Memory.erase, List.filter_cons, Memory.listed, Ne.symm h] using ih
    · by_cases hb : d = b
      · simp [Memory.erase, Memory.listed, h, hb]
      · simpa [Memory.erase, List.filter_cons, Memory.listed, hd, hb] using ih

/-- A read after a write to the same cell gives the byte written. -/
@[simp] theorem Memory.read_write_self (fill : ImageFill) (m : Memory) (a : Nat) (v : Byte) :
    Memory.read fill (Memory.write fill m a v) a = some v := by
  unfold Memory.write
  split
  next h => simp [Memory.read, Memory.listed_erase_self, ← h]
  next => simp [Memory.read, Memory.listed_insert_self]

/-- A write leaves every other cell alone. -/
theorem Memory.read_write_other (fill : ImageFill) (m : Memory) (a b : Nat) (v : Byte) (h : b ≠ a) :
    Memory.read fill (Memory.write fill m a v) b = Memory.read fill m b := by
  unfold Memory.write
  split
  next => simp [Memory.read, Memory.listed_erase_other m a b h]
  next => simp [Memory.read, Memory.listed_insert_other m a b v h]

theorem Memory.mem_insert (m : Memory) (a : Nat) (v : Byte) (c : Host.Cell) :
    c ∈ Memory.insert m a v → c = (a, v) ∨ c ∈ m := by
  induction m with
  | nil => simp [Memory.insert]
  | cons d rest ih =>
    obtain ⟨b, w⟩ := d
    by_cases h1 : a < b
    · simp [Memory.insert, h1]
    · by_cases h2 : a = b
      · subst h2
        simp only [Memory.insert, lt_irrefl, if_true, if_false, List.mem_cons]
        exact Or.imp_right .inr
      · simp only [Memory.insert, h1, h2, if_false, List.mem_cons]
        rintro (h | h)
        · exact .inr (.inl h)
        · exact (ih h).imp id .inr

theorem Memory.insert_sorted (m : Memory) (a : Nat) (v : Byte)
    (h : m.Pairwise (fun p q => p.1 < q.1)) :
    (Memory.insert m a v).Pairwise (fun p q => p.1 < q.1) := by
  induction m with
  | nil => simp [Memory.insert]
  | cons d rest ih =>
    obtain ⟨b, w⟩ := d
    obtain ⟨hb, hr⟩ := List.pairwise_cons.mp h
    by_cases h1 : a < b
    · simp only [Memory.insert, h1, if_true]
      refine List.pairwise_cons.mpr ⟨fun c hc => ?_, h⟩
      rcases List.mem_cons.mp hc with rfl | hc
      · exact h1
      · exact lt_trans h1 (hb c hc)
    · by_cases h2 : a = b
      · subst h2
        simpa [Memory.insert] using ⟨fun x y hxy => hb (x, y) hxy, hr⟩
      · simp only [Memory.insert, h1, h2, if_false]
        refine List.pairwise_cons.mpr ⟨fun c hc => ?_, ih hr⟩
        rcases Memory.mem_insert rest a v c hc with rfl | hc
        · show b < a
          omega
        · exact hb c hc

/-- A write keeps the canonical form. -/
theorem Memory.write_wf (fill : ImageFill) (m : Memory) (a : Nat) (v : Byte) (h : Memory.wf fill m) :
    Memory.wf fill (Memory.write fill m a v) := by
  unfold Memory.write
  split
  next => exact ⟨h.1.filter _, fun c hc => h.2 c (List.mem_of_mem_filter hc)⟩
  next hv =>
    refine ⟨Memory.insert_sorted m a v h.1, fun c hc => ?_⟩
    rcases Memory.mem_insert m a v c hc with rfl | hc
    · exact hv
    · exact h.2 c hc

/-- A write to a cell of the memory lists no cell outside it. -/
theorem Memory.write_within (fill : ImageFill) (size : Nat) (m : Memory) (a : Nat) (v : Byte)
    (ha : a < size) (h : Memory.within size m) : Memory.within size (Memory.write fill m a v) := by
  intro c hc
  unfold Memory.write at hc
  split at hc
  next => exact h c (List.mem_of_mem_filter hc)
  next =>
    rcases Memory.mem_insert m a v c hc with rfl | hc
    · exact ha
    · exact h c hc

theorem Memory.ofImage_bounds (fill : ImageFill) (image : List Byte) (a : Nat) (c : Host.Cell)
    (hc : c ∈ Memory.ofImage fill a image) : a ≤ c.1 ∧ c.1 < a + image.length := by
  induction image generalizing a with
  | nil => simp [Memory.ofImage] at hc
  | cons b rest ih =>
    unfold Memory.ofImage at hc
    split at hc
    next => have := ih (a + 1) hc; simp only [List.length_cons]; omega
    next =>
      rcases List.mem_cons.mp hc with rfl | hc
      · simp
      · have := ih (a + 1) hc; simp only [List.length_cons]; omega

/-- An installed image is in canonical form. -/
theorem Memory.ofImage_wf (fill : ImageFill) (image : List Byte) (a : Nat) :
    Memory.wf fill (Memory.ofImage fill a image) := by
  induction image generalizing a with
  | nil => exact ⟨List.Pairwise.nil, fun c hc => by simp [Memory.ofImage] at hc⟩
  | cons b rest ih =>
    unfold Memory.ofImage
    split
    next => exact ih (a + 1)
    next h =>
      refine ⟨List.pairwise_cons.mpr ⟨fun c hc => ?_, (ih (a + 1)).1⟩, fun c hc => ?_⟩
      · have := (Memory.ofImage_bounds fill rest (a + 1) c hc).1
        show a < c.1
        omega
      · rcases List.mem_cons.mp hc with rfl | hc
        · exact h
        · exact (ih (a + 1)).2 c hc

/-- What a cell holds after an image is installed from address `a` on: its byte, or what the cells beyond it read as
(20_memory.md R58). -/
theorem Memory.ofImage_read (fill : ImageFill) (image : List Byte) (a k : Nat) :
    Memory.read fill (Memory.ofImage fill a image) k =
      if h : a ≤ k ∧ k < a + image.length then some image[k - a] else Memory.unlisted fill := by
  induction image generalizing a with
  | nil => rw [dif_neg (by simp)]; rfl
  | cons b rest ih =>
    have hn : a ≠ k → ∀ m, Memory.read fill ((a, b) :: m) k = Memory.read fill m k := fun h m => by
      simp [Memory.read, Memory.listed, h]
    unfold Memory.ofImage
    by_cases hk : a = k
    · subst hk
      simp only [List.length_cons]
      rw [dif_pos (by omega)]
      split
      next hb => rw [ih, dif_neg (by omega), ← hb]; simp
      next => simp [Memory.read, Memory.listed]
    · have hskip : Memory.read fill (if some b = Memory.unlisted fill then Memory.ofImage fill (a + 1) rest
          else (a, b) :: Memory.ofImage fill (a + 1) rest) k = Memory.read fill (Memory.ofImage fill (a + 1) rest) k := by
        split
        next => rfl
        next => exact hn hk _
      rw [hskip, ih]
      by_cases hin : a + 1 ≤ k ∧ k < a + 1 + rest.length
      · have he : k - a = (k - (a + 1)) + 1 := by omega
        rw [dif_pos hin, dif_pos (by simp only [List.length_cons]; omega)]
        simp [he]
      · rw [dif_neg hin, dif_neg (by simp only [List.length_cons]; omega)]

/-- Memory with nothing listed is in canonical form. -/
theorem Memory.nil_wf (fill : ImageFill) : Memory.wf fill [] :=
  ⟨List.Pairwise.nil, fun c hc => by simp at hc⟩

end Sys2Proof.Machine
end

