-- ==== Sys2Proof/Laws/Ops.lean ====
section
/-! SUPPORT. One lemma for each shared operation that says everything it can do: register access, MemRead, MemWrite, taking a
fault, settling a step. -/

namespace Sys2Proof.Machine

theorem regIndex_ok (s : State) (v : RegId) (h : v.toNat < 4) : regIndex s v = .ok ⟨v.toNat, h⟩ := by
  simp [regIndex, h]

theorem regIndex_error (s : State) (v : RegId) (h : 4 ≤ v.toNat) :
    regIndex s v = .error (.addressError .register (zext8 v) s.ip) := by
  simp [regIndex, Nat.not_lt.mpr h]

/-- The checked register names a register exactly for the ids 0..3 (10_state.md R21). -/
theorem regIndex_cases (s : State) (v : RegId) :
    (∃ h : v.toNat < 4, regIndex s v = .ok ⟨v.toNat, h⟩) ∨
    (4 ≤ v.toNat ∧ regIndex s v = .error (.addressError .register (zext8 v) s.ip)) := by
  by_cases h : v.toNat < 4
  · exact .inl ⟨h, regIndex_ok s v h⟩
  · exact .inr ⟨by omega, regIndex_error s v (by omega)⟩

theorem reg_ok (s : State) (v : RegId) (h : v.toNat < 4) : reg s v = .ok s.x[v.toNat] := by
  simp [reg, regIndex_ok s v h]

theorem reg_error (s : State) (v : RegId) (h : 4 ≤ v.toNat) :
    reg s v = .error (.addressError .register (zext8 v) s.ip) := by
  simp [reg, regIndex_error s v h]

theorem State.inRange_iff (s : State) (a : Int) : s.inRange a = true ↔ 0 ≤ a ∧ a < (s.cfg.memSize : Int) := by
  simp [State.inRange]

theorem memRead_ok (kind : AccessKind) (s : State) (a : Int) (v : Byte)
    (ha : s.inRange a = true) (hv : s.cell a.toNat = some v) : memRead kind s a = .ok v := by
  simp [memRead, ha, hv]

/-- MemRead answers the cell's byte, or its AddressError (20_memory.md R52). -/
theorem memRead_cases (kind : AccessKind) (s : State) (a : Int) :
    (∃ v, s.inRange a = true ∧ s.cell a.toNat = some v ∧ memRead kind s a = .ok v) ∨
    ((s.inRange a = false ∨ s.cell a.toNat = none) ∧ memRead kind s a = .error (.addressError kind a s.ip)) := by
  unfold memRead
  cases ha : s.inRange a
  · simp
  · cases hv : s.cell a.toNat <;> simp

/-- MemWrite writes the one cell, or answers its AddressError (20_memory.md R53). -/
theorem memWrite_cases (kind : AccessKind) (s : State) (a : Int) (v : Byte) :
    (s.inRange a = true ∧
      memWrite kind s a v = .ok (s.setMem (Memory.write s.cfg.imageFill s.mem a.toNat v))) ∨
    (s.inRange a = false ∧ memWrite kind s a v = .error (.addressError kind a s.ip)) := by
  unfold memWrite
  cases s.inRange a <;> simp

@[simp] theorem settle_ok (s t : State) : settle s (.ok t) = .next t := rfl

@[simp] theorem settle_error (s : State) (e : FaultCause) : settle s (.error e) = .next (s.setStatus (.faulted e)) := rfl

/-- A settled step is a next state: the instruction's writes, or the fault alone (30_encoding.md R79). -/
theorem settle_cases (s : State) (r : Except FaultCause State) :
    (∃ t, r = .ok t ∧ settle s r = .next t) ∨
    (∃ e, r = .error e ∧ settle s r = .next (s.setStatus (.faulted e))) := by
  cases r with
  | ok t => exact .inl ⟨t, rfl, rfl⟩
  | error e => exact .inr ⟨e, rfl, rfl⟩

theorem storeOutcome_inRange (s : State) (a : Int) (h : s.inRange a = true) : a.toNat < s.cfg.memSize := by
  have := (State.inRange_iff s a).mp h
  omega

end Sys2Proof.Machine
end

