-- ==== Sys2Proof/Laws/Arith.lean ====
section
/-! SUPPORT. commit8 and the shared arithmetic (40_alu_register.md R100-R103). -/

namespace Sys2Proof.Machine

theorem commit8_byte (s : State) (v : Byte) : commit8 s (zext8 v) = .ok v := by
  have h : (v.toNat : Int) ≤ 255 := by have := v.isLt; omega
  simp [commit8, zext8, h]

theorem commit8_wrap (s : State) (r : Int) (h : s.cfg.arithRange = .wrap) :
    commit8 s r = .ok (BitVec.ofNat 8 (r % 256).toNat) := by
  unfold commit8
  split
  next hr => rw [Int.emod_eq_of_lt hr.1 (by omega)]
  next => simp [h]

theorem commit8_overflow (s : State) (r : Int) (h : s.cfg.arithRange = .fault) (hr : 255 < r) :
    commit8 s r = .error (.arithmeticOverflow s.ip r) := by
  have h1 : ¬ (0 ≤ r ∧ r ≤ 255) := by omega
  simp [commit8, h, hr, h1]

theorem commit8_underflow (s : State) (r : Int) (h : s.cfg.arithRange = .fault) (hr : r < 0) :
    commit8 s r = .error (.arithmeticUnderflow s.ip r) := by
  have h1 : ¬ (0 ≤ r ∧ r ≤ 255) := by omega
  have h2 : ¬ (255 < r) := by omega
  simp [commit8, h, h1, h2]

/-- commit8 answers a byte or one of the two range faults, each on its side (40_alu_register.md R100). -/
theorem commit8_cases (s : State) (r : Int) :
    (∃ v, commit8 s r = .ok v) ∨ (255 < r ∧ commit8 s r = .error (.arithmeticOverflow s.ip r)) ∨
    (r < 0 ∧ commit8 s r = .error (.arithmeticUnderflow s.ip r)) := by
  cases hw : s.cfg.arithRange with
  | wrap => exact .inl ⟨_, commit8_wrap s r hw⟩
  | fault =>
    by_cases h1 : 255 < r
    · exact .inr (.inl ⟨h1, commit8_overflow s r hw h1⟩)
    · by_cases h2 : r < 0
      · exact .inr (.inr ⟨h2, commit8_underflow s r hw h2⟩)
      · exact .inl ⟨BitVec.ofNat 8 r.toNat, by simp only [commit8]; rw [if_pos ⟨by omega, by omega⟩]⟩

/-- The shared arithmetic, once the divide check and commit8 have answered. -/
theorem arith_ok (op : ArithOp) (d : Fin 4) (a b : Int) (n : Nat) (s : State) (v : Byte)
    (hd : divideCheck s op b = .ok ()) (hv : commit8 s (arithResult op a b) = .ok v) :
    arith op d a b n s = .ok (((s.setF (arithFlags s.cfg.arithFlags op a b (arithResult op a b) s.F)).setReg d v).advance n) := by
  simp [arith, hd, hv]

/-- The A* two-operand form with both ids good. -/
theorem arithRegReg_ok (op : ArithOp) (r q : RegId) (s : State) (hr : r.toNat < 4) (hq : q.toNat < 4) :
    arithRegReg op r q s = settle s (arith op ⟨r.toNat, hr⟩ (zext8 s.x[r.toNat]) (zext8 s.x[q.toNat]) 2 s) := by
  simp only [arithRegReg, regIndex_ok s r hr, reg_ok s q hq]
  rfl

/-- The A* two-operand form with a bad first id, whatever the second (40_alu_register.md R103). -/
theorem arithRegReg_badFirst (op : ArithOp) (r q : RegId) (s : State) (hr : 4 ≤ r.toNat) :
    arithRegReg op r q s = .next (s.setStatus (.faulted (.addressError .register (zext8 r) s.ip))) := by
  simp only [arithRegReg, regIndex_error s r hr, settle_error]

/-- The A* two-operand form with a bad second id. -/
theorem arithRegReg_badSecond (op : ArithOp) (r q : RegId) (s : State) (hr : r.toNat < 4) (hq : 4 ≤ q.toNat) :
    arithRegReg op r q s = .next (s.setStatus (.faulted (.addressError .register (zext8 q) s.ip))) := by
  simp only [arithRegReg, regIndex_ok s r hr, reg_error s q hq, settle_error]

/-- The A* one-operand form with a good id. -/
theorem arithReg_ok (op : ArithOp) (r : RegId) (s : State) (hr : r.toNat < 4) :
    arithReg op r s = settle s (arith op ⟨r.toNat, hr⟩ (zext8 s.x[r.toNat]) 1 1 s) := by
  simp only [arithReg, regIndex_ok s r hr]
  rfl

theorem arithReg_bad (op : ArithOp) (r : RegId) (s : State) (hr : 4 ≤ r.toNat) :
    arithReg op r s = .next (s.setStatus (.faulted (.addressError .register (zext8 r) s.ip))) := by
  simp only [arithReg, regIndex_error s r hr, settle_error]

/-- The B* form with a good id. -/
theorem arithRegImm_ok (op : ArithOp) (r : RegId) (i : Literal) (s : State) (hr : r.toNat < 4) :
    arithRegImm op r i s = settle s (arith op ⟨r.toNat, hr⟩ (zext8 s.x[r.toNat]) (zext8 i) 2 s) := by
  simp only [arithRegImm, regIndex_ok s r hr]
  rfl

theorem arithRegImm_bad (op : ArithOp) (r : RegId) (i : Literal) (s : State) (hr : 4 ≤ r.toNat) :
    arithRegImm op r i s = .next (s.setStatus (.faulted (.addressError .register (zext8 r) s.ip))) := by
  simp only [arithRegImm, regIndex_error s r hr, settle_error]

end Sys2Proof.Machine
end

