-- ==== Sys2Proof/Laws/Decode.lean ====
section
/-! SUPPORT. The opcode table's lookup, and the small facts of instructions and their operations. -/

namespace Sys2Proof

theorem Op.mem_all (o : Op) : o ∈ Op.all := by cases o <;> decide

/-- A lookup answers an operation of that byte. -/
theorem OpcodeMap.byteOf_of_lookup (m : OpcodeMap) (b : Byte) (o : Op) (h : m.lookup b = some o) : m.byteOf o = b := by
  simpa using List.find?_some h

/-- The bytes of a well-formed map are distinct (30_encoding.md R81). -/
theorem OpcodeMap.byteOf_nodup (m : OpcodeMap) (h : m.wf = true) : (Op.all.map m.byteOf).Nodup := by
  simp only [OpcodeMap.wf, Bool.and_eq_true, decide_eq_true_eq] at h
  exact h.2

/-- Under a well-formed map the lookup of an operation's byte answers that operation. -/
theorem OpcodeMap.lookup_byteOf (m : OpcodeMap) (h : m.wf = true) (o : Op) : m.lookup (m.byteOf o) = some o := by
  have inj : ∀ o', m.byteOf o' = m.byteOf o → o' = o := fun o' he =>
    List.inj_on_of_nodup_map (m.byteOf_nodup h) (Op.mem_all o') (Op.mem_all o) he
  unfold OpcodeMap.lookup
  cases hf : Op.all.find? (fun o' => m.byteOf o' == m.byteOf o) with
  | none => simpa using List.find?_eq_none.mp hf o (Op.mem_all o)
  | some o' =>
    have := List.find?_some hf
    simp only [beq_iff_eq] at this
    rw [inj o' this]

/-- A byte no operation has is not found (30_encoding.md R75, R83). -/
theorem OpcodeMap.lookup_none (m : OpcodeMap) (opc : Byte) (h : ∀ o, m.byteOf o ≠ opc) : m.lookup opc = none :=
  List.find?_eq_none.mpr (fun o _ => by simpa using h o)

@[simp] theorem Op.build_op (o : Op) (a b : Byte) : (o.build a b).op = o := by cases o <;> rfl

@[simp] theorem Instr.operands_length (i : Instr) : i.operands.length = i.op.operandCount := by cases i <;> rfl

theorem Op.operandCount_le (o : Op) : o.operandCount ≤ 2 := by cases o <;> decide

/-- What taking the operands answers: the operation's instruction whose operand bytes stood at the front. -/
theorem Op.takeOperands_ok (o : Op) (bytes rest : List Byte) (i : Instr) (h : o.takeOperands bytes = .ok (i, rest)) :
    i.op = o ∧ bytes = i.operands ++ rest := by
  unfold Op.takeOperands at h
  split at h
  next hc =>
    cases h
    cases o <;> first | exact absurd hc (by decide) | exact ⟨rfl, rfl⟩
  next hc =>
    cases h
    cases o <;> first | exact absurd hc (by decide) | exact ⟨rfl, rfl⟩
  next hc =>
    cases h
    cases o <;> first | exact absurd hc (by decide) | exact ⟨rfl, rfl⟩
  next => cases h

/-- Operand bytes of the right number are taken, whatever they are (30_encoding.md R85). -/
theorem Op.takeOperands_of_length (o : Op) (operands : List Byte) (h : operands.length = o.operandCount) :
    ∃ i, o.takeOperands operands = .ok (i, []) := by
  unfold Op.takeOperands
  rw [← h]
  match operands, Op.operandCount_le o with
  | [], _ => exact ⟨_, rfl⟩
  | [_], _ => exact ⟨_, rfl⟩
  | [_, _], _ => exact ⟨_, rfl⟩
  | _ :: _ :: _ :: _, hle => simp only [List.length_cons] at h; omega


end Sys2Proof
end

