-- ==== Sys2Proof/Laws/PerInstr.lean ====
section
/-! SUPPORT. A statement about every instruction as syntax, one lemma per constructor: its encoding has the length its opcode
says, one to three bytes, and begins with its opcode byte (30_encoding.md R70, R82). -/

namespace Sys2Proof.Laws.EncodedLength

/-- Under every OPCODE_BYTE the encoding is the opcode byte and `operandCount` bytes more, at most three in all. -/
def Statement (i : Instr) : Prop :=
  ∀ m : OpcodeMap, (encode m i).length = i.length ∧ i.length ≤ 3 ∧ (encode m i).head? = some (m.byteOf i.op)

theorem of_any (i : Instr) : Statement i := by
  intro m
  refine ⟨?_, ?_, rfl⟩
  · simp [encode, Instr.length, Nat.add_comm]
  · have := Op.operandCount_le i.op
    simp only [Instr.length]
    omega

theorem halt : Statement .halt := of_any _
theorem addRR (a b : Byte) : Statement (.addRR a b) := of_any _
theorem subRR (a b : Byte) : Statement (.subRR a b) := of_any _
theorem mulRR (a b : Byte) : Statement (.mulRR a b) := of_any _
theorem divRR (a b : Byte) : Statement (.divRR a b) := of_any _
theorem incR (a : Byte) : Statement (.incR a) := of_any _
theorem decR (a : Byte) : Statement (.decR a) := of_any _
theorem modRR (a b : Byte) : Statement (.modRR a b) := of_any _
theorem addRI (a b : Byte) : Statement (.addRI a b) := of_any _
theorem subRI (a b : Byte) : Statement (.subRI a b) := of_any _
theorem mulRI (a b : Byte) : Statement (.mulRI a b) := of_any _
theorem divRI (a b : Byte) : Statement (.divRI a b) := of_any _
theorem modRI (a b : Byte) : Statement (.modRI a b) := of_any _
theorem jmp (a : Byte) : Statement (.jmp a) := of_any _
theorem jz (a : Byte) : Statement (.jz a) := of_any _
theorem jnz (a : Byte) : Statement (.jnz a) := of_any _
theorem js (a : Byte) : Statement (.js a) := of_any _
theorem jns (a : Byte) : Statement (.jns a) := of_any _
theorem jo (a : Byte) : Statement (.jo a) := of_any _
theorem jno (a : Byte) : Statement (.jno a) := of_any _
theorem movRI (a b : Byte) : Statement (.movRI a b) := of_any _
theorem movRA (a b : Byte) : Statement (.movRA a b) := of_any _
theorem movAI (a b : Byte) : Statement (.movAI a b) := of_any _
theorem movRM (a b : Byte) : Statement (.movRM a b) := of_any _
theorem movMR (a b : Byte) : Statement (.movMR a b) := of_any _
theorem cmpRR (a b : Byte) : Statement (.cmpRR a b) := of_any _
theorem cmpRI (a b : Byte) : Statement (.cmpRI a b) := of_any _
theorem cmpRA (a b : Byte) : Statement (.cmpRA a b) := of_any _
theorem push (a : Byte) : Statement (.push a) := of_any _
theorem pop (a : Byte) : Statement (.pop a) := of_any _

end Sys2Proof.Laws.EncodedLength
end

