-- ==== Sys2Proof/Laws/Step.lean ====
section
/-! SUPPORT. What executing any instruction and taking a step can do, said once: the inversion lemmas that the claims about the
whole machine cite instead of unfolding exec. -/

namespace Sys2Proof.Machine

theorem memRead_of_holds (kind : AccessKind) (s : State) (a : Int) (v : Byte) (h : s.holds a v) :
    memRead kind s a = .ok v :=
  memRead_ok kind s a v ((State.inRange_iff s a).mpr ⟨h.1, h.2.1⟩) h.2.2

theorem memRead_of_unreadable (kind : AccessKind) (s : State) (a : Int) (h : s.unreadable a) :
    memRead kind s a = .error (.addressError kind a s.ip) := by
  rcases memRead_cases kind s a with ⟨v, h1, h2, _⟩ | ⟨_, h3⟩
  · have := (State.inRange_iff s a).mp h1
    rcases h with h | h | h
    · omega
    · omega
    · simp [h] at h2
  · exact h3

theorem memWrite_of_inRange (kind : AccessKind) (s : State) (a : Int) (v : Byte) (h0 : 0 ≤ a)
    (h1 : a < (s.cfg.memSize : Int)) :
    memWrite kind s a v = .ok (s.setMem (Memory.write s.cfg.imageFill s.mem a.toNat v)) := by
  simp [memWrite, (State.inRange_iff s a).mpr ⟨h0, h1⟩]

theorem memWrite_of_outside (kind : AccessKind) (s : State) (a : Int) (v : Byte)
    (h : a < 0 ∨ (s.cfg.memSize : Int) ≤ a) : memWrite kind s a v = .error (.addressError kind a s.ip) := by
  have hr : s.inRange a = false := by
    rw [← Bool.not_eq_true, State.inRange_iff]
    omega
  simp [memWrite, hr]

/-- A fault `e` that executing `i` can raise in `s`: one its row of the table allows (60_exceptions.md R201), recorded at the
instruction's ip, a register fault for an operand that names no register, a range fault for a result out of range. -/
def State.execFault (s : State) (i : Instr) (e : FaultCause) : Prop :=
  mayRaise s.cfg.movmiSrc i e = true ∧ e.ip = s.ip ∧
  match e with
  | .addressError .register v _ => ∃ r ∈ i.regOperands s.cfg.movmiSrc, 4 ≤ r.toNat ∧ zext8 r = v
  | .arithmeticOverflow _ r => 255 < r
  | .arithmeticUnderflow _ r => r < 0
  | _ => True

/-- The faults of the shared arithmetic, by operation (40_alu_register.md R102). -/
def arithRaises (op : ArithOp) : FaultCause → Bool
  | .arithmeticOverflow _ _ => op == .add || op == .mul || op == .inc
  | .arithmeticUnderflow _ _ => op == .sub || op == .dec
  | .divideByZero _ => op == .div || op == .mod
  | .decodeError _ _ => false
  | .addressError _ _ _ => false

/-- The nine shapes of what executing an instruction does to a state. -/
inductive Effect (i : Instr) (s : State) : State → Prop where
  | fault (e : FaultCause) (h : s.execFault i e) : Effect i s (s.setStatus (.faulted e))
  | halt (h : i = .halt) : Effect i s (s.setStatus .halted)
  | arith (op : ArithOp) (a b r : Int) (d : Fin 4) (v : Byte) (h : i.op.family = .A ∨ i.op.family = .B)
      (hd : ∃ q, writesReg i = some q ∧ q.toNat = d) :
      Effect i s (((s.setF (arithFlags s.cfg.arithFlags op a b r s.F)).setReg d v).advance i.op.operandCount)
  | jump (a : Int) (h : i.op.family = .C) : Effect i s (s.setIp a)
  | move (d : Fin 4) (v : Byte) (h : i.op = .movRI ∨ i.op = .movRA ∨ i.op = .movRM)
      (hd : ∃ q, writesReg i = some q ∧ q.toNat = d) : Effect i s ((s.setReg d v).advance 2)
  | store (a : Int) (v : Byte) (h : i.op = .movAI ∨ i.op = .movMR) (ha : s.inRange a = true) :
      Effect i s ((s.setMem (Memory.write s.cfg.imageFill s.mem a.toNat v)).advance 2)
  | compare (a b : Int) (h : i.op = .cmpRR ∨ i.op = .cmpRI ∨ i.op = .cmpRA) :
      Effect i s ((s.setF (cmpFlags a b s.F)).advance 2)
  | push (v : Byte) (h : i.op = .push) (ha : s.inRange s.sp = true) :
      Effect i s (((s.setMem (Memory.write s.cfg.imageFill s.mem s.sp.toNat v)).setSp (s.sp - 1)).advance 1)
  | pop (d : Fin 4) (v : Byte) (h : i.op = .pop) (ha : s.inRange (s.sp + 1) = true)
      (hd : ∃ q, writesReg i = some q ∧ q.toNat = d) :
      Effect i s (((s.setReg d v).setSp (s.sp + 1)).advance 1)

theorem execFault_register (s : State) (i : Instr) (r : RegId) (h : r ∈ i.regOperands s.cfg.movmiSrc) (hr : 4 ≤ r.toNat) :
    s.execFault i (.addressError .register (zext8 r) s.ip) := by
  refine ⟨?_, rfl, r, h, hr, rfl⟩
  simp only [mayRaise, Bool.not_eq_true', List.isEmpty_eq_false_iff]
  exact List.ne_nil_of_mem h

theorem execFault_access (s : State) (i : Instr) (kind : AccessKind) (a : Int) (hk : kind = .data ∨ kind = .stack)
    (h : mayRaise s.cfg.movmiSrc i (.addressError kind a s.ip) = true) : s.execFault i (.addressError kind a s.ip) := by
  refine ⟨h, rfl, ?_⟩
  rcases hk with rfl | rfl <;> trivial

/-- The range of the exact result (40_alu_register.md R102): which operations can leave 0..255, and on which side. -/
theorem arithResult_range (op : ArithOp) (a b : Byte) (k : Int) (hk : k = zext8 b ∨ k = 1)
    (hd : (op == .div || op == .mod) = true → k ≠ 0) :
    (255 < arithResult op (zext8 a) k → (op == .add || op == .mul || op == .inc) = true) ∧
    (arithResult op (zext8 a) k < 0 → (op == .sub || op == .dec) = true) := by
  have ha := a.isLt
  have hb := b.isLt
  have h0 : 0 ≤ zext8 a ∧ zext8 a ≤ 255 := by simp only [zext8]; omega
  have h1 : 0 ≤ k ∧ k ≤ 255 := by simp only [zext8] at hk; omega
  cases op <;> simp only [arithResult] <;> refine ⟨fun h => ?_, fun h => ?_⟩ <;> first
    | rfl
    | (exfalso; omega)
    | (exfalso; have := Int.mul_nonneg h0.1 h1.1; omega)
    | (exfalso; have := Int.ediv_le_self k h0.1; omega)
    | (exfalso; have := Int.ediv_nonneg h0.1 h1.1; omega)
    | (exfalso; have := Int.emod_lt_of_pos (zext8 a) (show 0 < k by have := hd rfl; omega); omega)
    | (exfalso; have := Int.emod_nonneg (zext8 a) (hd rfl); omega)

/-- The shared arithmetic completes with its writes or raises one of its operation's faults. -/
theorem arith_effect (op : ArithOp) (d : Fin 4) (a b : Byte) (k : Int) (hk : k = zext8 b ∨ k = 1) (n : Nat) (s : State) (i : Instr)
    (hi : ∀ e, arithRaises op e = true → mayRaise s.cfg.movmiSrc i e = true) :
    (∃ v, arith op d (zext8 a) k n s =
      .ok (((s.setF (arithFlags s.cfg.arithFlags op (zext8 a) k (arithResult op (zext8 a) k) s.F)).setReg d v).advance n)) ∨
    ∃ e, s.execFault i e ∧ arith op d (zext8 a) k n s = .error e := by
  have hd : (divideCheck s op k = .ok () ∧ ((op == .div || op == .mod) = true → k ≠ 0)) ∨
      (divideCheck s op k = .error (.divideByZero s.ip) ∧ (op == .div || op == .mod) = true) := by
    unfold divideCheck
    by_cases hz : k = 0 <;> cases op <;> simp [hz]
  rcases hd with ⟨hd, hz⟩ | ⟨hd, hz⟩
  · obtain ⟨hover, hunder⟩ := arithResult_range op a b k hk hz
    rcases commit8_cases s (arithResult op (zext8 a) k) with ⟨v, hv⟩ | ⟨hg, hv⟩ | ⟨hl, hv⟩
    · exact .inl ⟨v, arith_ok op d (zext8 a) k n s v hd hv⟩
    · exact .inr ⟨.arithmeticOverflow s.ip _, ⟨hi _ (hover hg), rfl, hg⟩, by simp only [arith, hd, hv]⟩
    · exact .inr ⟨.arithmeticUnderflow s.ip _, ⟨hi _ (hunder hl), rfl, hl⟩, by simp only [arith, hd, hv]⟩
  · exact .inr ⟨_, ⟨hi (.divideByZero s.ip) hz, rfl, trivial⟩, by simp only [arith, hd]⟩

theorem arithRegReg_effect (i : Instr) (op : ArithOp) (r q : RegId) (s : State)
    (hf : i.op.family = .A ∨ i.op.family = .B) (hc : i.op.operandCount = 2) (hw : writesReg i = some r)
    (ho : i.regOperands s.cfg.movmiSrc = [r, q]) (hi : ∀ e, arithRaises op e = true → mayRaise s.cfg.movmiSrc i e = true) :
    ∃ t, arithRegReg op r q s = .next t ∧ Effect i s t := by
  by_cases hr : r.toNat < 4
  · by_cases hq : q.toNat < 4
    · rw [arithRegReg_ok op r q s hr hq]
      rcases arith_effect op ⟨r.toNat, hr⟩ s.x[r.toNat] s.x[q.toNat] _ (.inl rfl) 2 s i hi with ⟨v, hv⟩ | ⟨e, he, hv⟩
      · exact ⟨_, congrArg (settle s) hv, hc ▸ .arith op _ _ _ _ v hf ⟨r, hw, rfl⟩⟩
      · exact ⟨_, congrArg (settle s) hv, .fault e he⟩
    · exact ⟨_, arithRegReg_badSecond op r q s hr (by omega), .fault _ (execFault_register s i q (by simp [ho]) (by omega))⟩
  · exact ⟨_, arithRegReg_badFirst op r q s (by omega), .fault _ (execFault_register s i r (by simp [ho]) (by omega))⟩

theorem arithRegImm_effect (i : Instr) (op : ArithOp) (r : RegId) (k : Literal) (s : State)
    (hf : i.op.family = .A ∨ i.op.family = .B) (hc : i.op.operandCount = 2) (hw : writesReg i = some r)
    (ho : i.regOperands s.cfg.movmiSrc = [r]) (hi : ∀ e, arithRaises op e = true → mayRaise s.cfg.movmiSrc i e = true) :
    ∃ t, arithRegImm op r k s = .next t ∧ Effect i s t := by
  by_cases hr : r.toNat < 4
  · rw [arithRegImm_ok op r k s hr]
    rcases arith_effect op ⟨r.toNat, hr⟩ s.x[r.toNat] k _ (.inl rfl) 2 s i hi with ⟨v, hv⟩ | ⟨e, he, hv⟩
    · exact ⟨_, congrArg (settle s) hv, hc ▸ .arith op _ _ _ _ v hf ⟨r, hw, rfl⟩⟩
    · exact ⟨_, congrArg (settle s) hv, .fault e he⟩
  · exact ⟨_, arithRegImm_bad op r k s (by omega), .fault _ (execFault_register s i r (by simp [ho]) (by omega))⟩

theorem arithReg_effect (i : Instr) (op : ArithOp) (r : RegId) (s : State)
    (hf : i.op.family = .A ∨ i.op.family = .B) (hc : i.op.operandCount = 1) (hw : writesReg i = some r)
    (ho : i.regOperands s.cfg.movmiSrc = [r]) (hi : ∀ e, arithRaises op e = true → mayRaise s.cfg.movmiSrc i e = true) :
    ∃ t, arithReg op r s = .next t ∧ Effect i s t := by
  by_cases hr : r.toNat < 4
  · rw [arithReg_ok op r s hr]
    rcases arith_effect op ⟨r.toNat, hr⟩ s.x[r.toNat] 0 1 (.inr rfl) 1 s i hi with ⟨v, hv⟩ | ⟨e, he, hv⟩
    · exact ⟨_, congrArg (settle s) hv, hc ▸ .arith op _ _ _ _ v hf ⟨r, hw, rfl⟩⟩
    · exact ⟨_, congrArg (settle s) hv, .fault e he⟩
  · exact ⟨_, arithReg_bad op r s (by omega), .fault _ (execFault_register s i r (by simp [ho]) (by omega))⟩

/-- A register read of an operand answers its value or its register fault. -/
theorem reg_cases (s : State) (i : Instr) (v : RegId) (h : v ∈ i.regOperands s.cfg.movmiSrc) :
    (∃ b, reg s v = .ok b) ∨ ∃ e, s.execFault i e ∧ reg s v = .error e := by
  by_cases hv : v.toNat < 4
  · exact .inl ⟨_, reg_ok s v hv⟩
  · exact .inr ⟨_, execFault_register s i v h (by omega), reg_error s v (by omega)⟩

theorem loadTo_effect (i : Instr) (r : RegId) (addr : Except FaultCause Int) (s : State)
    (hop : i.op = .movRA ∨ i.op = .movRM) (hw : writesReg i = some r) (ho : r ∈ i.regOperands s.cfg.movmiSrc)
    (hf : ∀ e, addr = .error e → s.execFault i e) :
    ∃ t, loadTo r addr s = .next t ∧ Effect i s t := by
  unfold loadTo
  rcases regIndex_cases s r with ⟨hr, h1⟩ | ⟨hr, h1⟩
  · cases addr with
    | error e => exact ⟨_, by rw [h1]; rfl, .fault e (hf e rfl)⟩
    | ok a =>
      rcases memRead_cases .data s a with ⟨v, _, _, hv⟩ | ⟨_, hv⟩
      · exact ⟨_, by simp only [h1, hv]; rfl, .move _ v (.inr hop) ⟨r, hw, rfl⟩⟩
      · refine ⟨_, by simp only [h1, hv]; rfl, .fault _ (execFault_access s i .data a (.inl rfl) ?_)⟩
        rcases hop with h | h <;> simp [mayRaise, h]
  · exact ⟨_, by rw [h1]; rfl, .fault _ (execFault_register s i r ho hr)⟩

theorem storeAt_effect (i : Instr) (a : Int) (v : Byte) (s : State) (hop : i.op = .movAI ∨ i.op = .movMR) :
    ∃ t, settle s (storeAt a v s) = .next t ∧ Effect i s t := by
  unfold storeAt
  rcases memWrite_cases .data s a v with ⟨ha, hv⟩ | ⟨_, hv⟩
  · exact ⟨_, by rw [hv]; rfl, .store a v hop ha⟩
  · refine ⟨_, by rw [hv]; rfl, .fault _ (execFault_access s i .data a (.inl rfl) ?_)⟩
    rcases hop with h | h <;> simp [mayRaise, h]

theorem compareWith_effect (i : Instr) (r : RegId) (right : Except FaultCause Byte) (s : State)
    (hop : i.op = .cmpRR ∨ i.op = .cmpRI ∨ i.op = .cmpRA) (ho : r ∈ i.regOperands s.cfg.movmiSrc)
    (hf : ∀ e, right = .error e → s.execFault i e) :
    ∃ t, compareWith r right s = .next t ∧ Effect i s t := by
  unfold compareWith
  rcases reg_cases s i r ho with ⟨b, h1⟩ | ⟨e, he, h1⟩
  · rw [h1]
    cases right with
    | error e => exact ⟨_, rfl, .fault e (hf e rfl)⟩
    | ok b => exact ⟨_, rfl, .compare _ _ hop⟩
  · exact ⟨_, by rw [h1]; rfl, .fault e he⟩

/-- Everything executing an instruction can do: it answers a next state of one of the nine shapes. -/
theorem exec_effect (i : Instr) (s : State) : ∃ t, exec i s = .next t ∧ Effect i s t := by
  cases i with
  | halt => exact ⟨_, rfl, .halt rfl⟩
  | addRR r q => exact arithRegReg_effect _ .add r q s (.inl rfl) rfl rfl rfl (fun e h => by cases e <;> first | rfl | simp [arithRaises] at h)
  | subRR r q => exact arithRegReg_effect _ .sub r q s (.inl rfl) rfl rfl rfl (fun e h => by cases e <;> first | rfl | simp [arithRaises] at h)
  | mulRR r q => exact arithRegReg_effect _ .mul r q s (.inl rfl) rfl rfl rfl (fun e h => by cases e <;> first | rfl | simp [arithRaises] at h)
  | divRR r q => exact arithRegReg_effect _ .div r q s (.inl rfl) rfl rfl rfl (fun e h => by cases e <;> first | rfl | simp [arithRaises] at h)
  | modRR r q => exact arithRegReg_effect _ .mod r q s (.inl rfl) rfl rfl rfl (fun e h => by cases e <;> first | rfl | simp [arithRaises] at h)
  | incR r => exact arithReg_effect _ .inc r s (.inl rfl) rfl rfl rfl (fun e h => by cases e <;> first | rfl | simp [arithRaises] at h)
  | decR r => exact arithReg_effect _ .dec r s (.inl rfl) rfl rfl rfl (fun e h => by cases e <;> first | rfl | simp [arithRaises] at h)
  | addRI r k => exact arithRegImm_effect _ .add r k s (.inr rfl) rfl rfl rfl (fun e h => by cases e <;> first | rfl | simp [arithRaises] at h)
  | subRI r k => exact arithRegImm_effect _ .sub r k s (.inr rfl) rfl rfl rfl (fun e h => by cases e <;> first | rfl | simp [arithRaises] at h)
  | mulRI r k => exact arithRegImm_effect _ .mul r k s (.inr rfl) rfl rfl rfl (fun e h => by cases e <;> first | rfl | simp [arithRaises] at h)
  | divRI r k => exact arithRegImm_effect _ .div r k s (.inr rfl) rfl rfl rfl (fun e h => by cases e <;> first | rfl | simp [arithRaises] at h)
  | modRI r k => exact arithRegImm_effect _ .mod r k s (.inr rfl) rfl rfl rfl (fun e h => by cases e <;> first | rfl | simp [arithRaises] at h)
  | jmp d => exact ⟨_, rfl, .jump _ rfl⟩
  | jz d => exact ⟨_, rfl, .jump _ rfl⟩
  | jnz d => exact ⟨_, rfl, .jump _ rfl⟩
  | js d => exact ⟨_, rfl, .jump _ rfl⟩
  | jns d => exact ⟨_, rfl, .jump _ rfl⟩
  | jo d => exact ⟨_, rfl, .jump _ rfl⟩
  | jno d => exact ⟨_, rfl, .jump _ rfl⟩
  | movRI r k =>
    rcases regIndex_cases s r with ⟨hr, h1⟩ | ⟨hr, h1⟩
    · exact ⟨_, by simp only [exec, execMovRI, h1]; rfl, .move _ k (.inl rfl) ⟨r, rfl, rfl⟩⟩
    · exact ⟨_, by simp only [exec, execMovRI, h1]; rfl, .fault _ (execFault_register s _ r (by simp [Instr.regOperands]) hr)⟩
  | movRA r a =>
    exact loadTo_effect (.movRA r a) r (.ok (zext8 a)) s (.inl rfl) rfl (by simp [Instr.regOperands]) (fun e h => by cases h)
  | movAI a k =>
    have hm : (∃ v, movmiSource s k = .ok v) ∨ ∃ e, s.execFault (.movAI a k) e ∧ movmiSource s k = .error e := by
      unfold movmiSource
      split
      next => exact .inl ⟨k, rfl⟩
      next hsrc => exact reg_cases s (.movAI a k) k (by simp [Instr.regOperands, hsrc])
    rcases hm with ⟨v, hv⟩ | ⟨e, he, hv⟩
    · simp only [exec, execMovAI, hv]
      exact storeAt_effect _ _ v s (.inl rfl)
    · exact ⟨_, by simp only [exec, execMovAI, hv]; rfl, .fault e he⟩
  | movRM r q =>
    refine loadTo_effect _ r _ s (.inr rfl) rfl (by simp [Instr.regOperands]) (fun e h => ?_)
    rcases reg_cases s (.movRM r q) q (by simp [Instr.regOperands]) with ⟨b, hq⟩ | ⟨e', he, hq⟩
    · rw [hq] at h; cases h
    · rw [hq] at h; cases h; exact he
  | movMR r q =>
    simp only [exec, execMovMR]
    rcases reg_cases s (.movMR r q) r (by simp [Instr.regOperands]) with ⟨a, hr⟩ | ⟨e, he, hr⟩
    · rcases reg_cases s (.movMR r q) q (by simp [Instr.regOperands]) with ⟨v, hq⟩ | ⟨e, he, hq⟩
      · simp only [hr, hq]
        exact storeAt_effect _ _ v s (.inr rfl)
      · exact ⟨_, by simp only [hr, hq]; rfl, .fault e he⟩
    · exact ⟨_, by simp only [hr]; rfl, .fault e he⟩
  | cmpRR r q =>
    refine compareWith_effect _ r _ s (.inl rfl) (by simp [Instr.regOperands]) (fun e h => ?_)
    rcases reg_cases s (.cmpRR r q) q (by simp [Instr.regOperands]) with ⟨b, hq⟩ | ⟨e', he, hq⟩
    · rw [hq] at h; cases h
    · rw [hq] at h; cases h; exact he
  | cmpRI r k =>
    exact compareWith_effect (.cmpRI r k) r (.ok k) s (.inr (.inl rfl)) (by simp [Instr.regOperands]) (fun e h => by cases h)
  | cmpRA r a =>
    refine compareWith_effect _ r _ s (.inr (.inr rfl)) (by simp [Instr.regOperands]) (fun e h => ?_)
    rcases memRead_cases .data s (zext8 a) with ⟨v, _, _, hv⟩ | ⟨_, hv⟩
    · rw [hv] at h; cases h
    · rw [hv] at h; cases h; exact execFault_access s _ .data _ (.inl rfl) rfl
  | push r =>
    simp only [exec, execPush]
    rcases reg_cases s (.push r) r (by simp [Instr.regOperands]) with ⟨v, hr⟩ | ⟨e, he, hr⟩
    · rcases memWrite_cases .stack s s.sp v with ⟨ha, hv⟩ | ⟨_, hv⟩
      · exact ⟨_, by simp only [hr, hv]; rfl, .push v rfl ha⟩
      · exact ⟨_, by simp only [hr, hv]; rfl, .fault _ (execFault_access s _ .stack _ (.inr rfl) rfl)⟩
    · exact ⟨_, by simp only [hr]; rfl, .fault e he⟩
  | pop r =>
    simp only [exec, execPop]
    rcases regIndex_cases s r with ⟨hr, h1⟩ | ⟨hr, h1⟩
    · rcases memRead_cases .stack s (s.sp + 1) with ⟨v, ha, _, hv⟩ | ⟨_, hv⟩
      · exact ⟨_, by simp only [h1, hv]; rfl, .pop _ v rfl ha ⟨r, rfl, rfl⟩⟩
      · exact ⟨_, by simp only [h1, hv]; rfl, .fault _ (execFault_access s _ .stack _ (.inr rfl) rfl)⟩
    · exact ⟨_, by rw [h1]; rfl, .fault _ (execFault_register s _ r (by simp [Instr.regOperands]) hr)⟩

/-- The inversion form of `exec_effect`. -/
theorem exec_next_effect (i : Instr) (s t : State) (h : exec i s = .next t) : Effect i s t := by
  obtain ⟨u, hu, he⟩ := exec_effect i s
  rw [h] at hu
  cases hu
  exact he

/-- A fault of the fetch: recorded at ip, a DecodeError or an AddressError(Fetch). -/
def State.fetchFault (s : State) (e : FaultCause) : Prop :=
  (∃ opc, e = .decodeError opc s.ip) ∨ ∃ a, e = .addressError .fetch a s.ip

theorem fetchInstr_error (s : State) (e : FaultCause) (h : fetchInstr s = .error e) : s.fetchFault e := by
  have hm : ∀ a e', memRead .fetch s a = .error e' → s.fetchFault e' := by
    intro a e' h'
    rcases memRead_cases .fetch s a with ⟨v, _, _, hv⟩ | ⟨_, hv⟩
    · rw [hv] at h'; cases h'
    · rw [hv] at h'; cases h'; exact .inr ⟨a, rfl⟩
  unfold fetchInstr at h
  split at h
  next e' h0 => cases h; exact hm _ _ h0
  next opc h0 =>
    split at h
    next => cases h; exact .inl ⟨opc, rfl⟩
    next o ho =>
      unfold fetchOperands at h
      split at h
      next => cases h
      next =>
        split at h
        next e' h1 => cases h; exact hm _ _ h1
        next => cases h
      next =>
        split at h
        next e' h1 => cases h; exact hm _ _ h1
        next =>
          split at h
          next e' h2 => cases h; exact hm _ _ h2
          next => cases h

/-- What the fetch answers: the opcode byte at ip is that of the instruction's operation. -/
theorem fetchInstr_ok (s : State) (i : Instr) (h : fetchInstr s = .ok i) :
    s.holds s.ip (s.cfg.opcodes.byteOf i.op) := by
  unfold fetchInstr at h
  split at h
  next => cases h
  next opc h0 =>
    rcases memRead_cases .fetch s s.ip with ⟨v, h1, h2, hv⟩ | ⟨_, hv⟩
    · rw [hv] at h0
      cases h0
      split at h
      next => cases h
      next o ho =>
        have hop : i.op = o := by
          unfold fetchOperands at h
          split at h
          next => cases h; simp
          next =>
            split at h
            next => cases h
            next => cases h; simp
          next =>
            split at h
            next => cases h
            next =>
              split at h
              next => cases h
              next => cases h; simp
        rw [hop, s.cfg.opcodes.byteOf_of_lookup opc o ho]
        exact ⟨((State.inRange_iff s s.ip).mp h1).1, ((State.inRange_iff s s.ip).mp h1).2, h2⟩
    · rw [hv] at h0; cases h0

/-- Everything a step that answers a next state can have done: a Running core executed the instruction at ip, or took a fault
of the fetch. -/
theorem step_cases (s t : State) (h : step s = .next t) :
    s.status = .running ∧
    ((∃ i, fetchInstr s = .ok i ∧ exec i s = .next t) ∨ ∃ e, s.fetchFault e ∧ t = s.setStatus (.faulted e)) := by
  unfold step at h
  split at h
  next hr =>
    refine ⟨hr, ?_⟩
    split at h
    next i hi => exact .inl ⟨i, hi, h⟩
    next e he =>
      cases h
      exact .inr ⟨e, fetchInstr_error s e he, rfl⟩
  next => cases h
  next => cases h
  next => cases h

end Sys2Proof.Machine
end

