-- ==== Sys2Proof/Laws/Run.lean ====
section
/-! SUPPORT. What a run can do, said once: how it goes on from a Running state, that an ended run is left alone, and that a run
from a Running state halts, faults or is still Running after any number of steps (70_reset_and_hazards.md R234). -/

namespace Sys2Proof.Machine

@[simp] theorem beginRun_status (s : State) : s.beginRun.status = .running := rfl

theorem continueRun_halted (n : Nat) (s : State) (h : s.status = .halted) : State.continueRun n s = .halted s := by
  unfold State.continueRun
  rw [h]

theorem continueRun_faulted (n : Nat) (s : State) (e : FaultCause) (h : s.status = .faulted e) :
    State.continueRun n s = .faulted e s := by
  unfold State.continueRun
  rw [h]

theorem continueRun_zero (s : State) (h : s.status = .running) : State.continueRun 0 s = .unfinished s := by
  unfold State.continueRun
  rw [h]

theorem continueRun_succ (n : Nat) (s t : State) (h : s.status = .running) (hs : step s = .next t) :
    State.continueRun (n + 1) s = State.continueRun n t := by
  conv_lhs => unfold State.continueRun
  simp only [h, hs]

/-- A Running core has a next step, and it leads to Running, Halted or Faulted. -/
theorem step_running (s : State) (h : s.status = .running) :
    ∃ t, step s = .next t ∧ (t.status = .running ∨ t.status = .halted ∨ ∃ e, t.status = .faulted e) := by
  unfold step
  rw [h]
  cases hf : fetchInstr s with
  | error e => exact ⟨_, rfl, .inr (.inr ⟨e, rfl⟩)⟩
  | ok i =>
    obtain ⟨t, ht, hE⟩ := exec_effect i s
    refine ⟨t, ht, ?_⟩
    cases hE with
    | fault e => exact .inr (.inr ⟨e, rfl⟩)
    | halt => exact .inr (.inl rfl)
    | _ => exact .inl h

/-- Everything `n` steps from a Running state can come to. An ended run was Running in a state of the run, and its last step
led to the state it ended in. -/
theorem continueRun_cases (n : Nat) (s : State) (h : s.status = .running) :
    (∃ t, State.continueRun n s = .unfinished t ∧ t.status = .running) ∨
    (∃ k u t, k < n ∧ State.continueRun k s = .unfinished u ∧ u.status = .running ∧ step u = .next t ∧
      ((t.status = .halted ∧ State.continueRun n s = .halted t) ∨
       ∃ e, t.status = .faulted e ∧ State.continueRun n s = .faulted e t)) := by
  induction n generalizing s with
  | zero => exact .inl ⟨s, continueRun_zero s h, h⟩
  | succ n ih =>
    obtain ⟨t, hs, hr | hh | ⟨e, he⟩⟩ := step_running s h
    · rw [continueRun_succ n s t h hs]
      rcases ih t hr with hu | ⟨k, u, v, hk, hu, h1, h2, h3⟩
      · exact .inl hu
      · exact .inr ⟨k + 1, u, v, by omega, by rw [continueRun_succ k s t h hs, hu], h1, h2, h3⟩
    · rw [continueRun_succ n s t h hs]
      exact .inr ⟨0, s, t, by omega, continueRun_zero s h, h, hs, .inl ⟨hh, continueRun_halted n t hh⟩⟩
    · rw [continueRun_succ n s t h hs]
      exact .inr ⟨0, s, t, by omega, continueRun_zero s h, h, hs, .inr ⟨e, he, continueRun_faulted n t e he⟩⟩

/-- A run goes on from where it stood. -/
theorem continueRun_add (n k : Nat) (s t : State) (h : State.continueRun n s = .unfinished t) (hs : s.status = .running) :
    State.continueRun (n + k) s = State.continueRun k t := by
  induction n generalizing s with
  | zero =>
    rw [continueRun_zero s hs] at h
    cases h
    rw [Nat.zero_add]
  | succ n ih =>
    obtain ⟨u, hu, hr⟩ := step_running s hs
    rw [continueRun_succ n s u hs hu] at h
    rcases hr with hr | hh | ⟨e, he⟩
    · rw [Nat.add_right_comm, continueRun_succ _ s u hs hu]
      exact ih u h hr
    · rw [continueRun_halted n u hh] at h
      cases h
    · rw [continueRun_faulted n u e he] at h
      cases h

end Sys2Proof.Machine
end

