-- ==== Sys2Proof/Tests/Slice0.lean ====
section
/-! SUPPORT. The model's own tests. Words are written out from 30_encoding.md R80; the expected results are those of
95_test_vectors.md, each test named after its row there, or worked out from the rule the comment names. Then, for every
obligation with hypotheses, a witness that meets them. -/

namespace Sys2Proof.Tests

open Sys2Proof Sys2Proof.Machine

/-! ## Decoding: every row of the opcode table (30_encoding.md R80) -/

theorem test_decode_halt : decode OpcodeMap.standard [0x00] = .ok (.halt, []) := by decide
theorem test_decode_addRR : decode OpcodeMap.standard [0xA0, 0x00, 0x01] = .ok (.addRR 0 1, []) := by decide
theorem test_decode_subRR : decode OpcodeMap.standard [0xA1, 0x02, 0x03] = .ok (.subRR 2 3, []) := by decide
theorem test_decode_mulRR : decode OpcodeMap.standard [0xA2, 0x01, 0x00] = .ok (.mulRR 1 0, []) := by decide
theorem test_decode_divRR : decode OpcodeMap.standard [0xA3, 0x03, 0x02] = .ok (.divRR 3 2, []) := by decide
theorem test_decode_incR : decode OpcodeMap.standard [0xA4, 0x02] = .ok (.incR 2, []) := by decide
theorem test_decode_decR : decode OpcodeMap.standard [0xA5, 0x03] = .ok (.decR 3, []) := by decide
theorem test_decode_modRR : decode OpcodeMap.standard [0xA6, 0x00, 0x03] = .ok (.modRR 0 3, []) := by decide
theorem test_decode_addRI : decode OpcodeMap.standard [0xB0, 0x00, 0xFF] = .ok (.addRI 0 0xFF, []) := by decide
theorem test_decode_subRI : decode OpcodeMap.standard [0xB1, 0x01, 0x11] = .ok (.subRI 1 0x11, []) := by decide
theorem test_decode_mulRI : decode OpcodeMap.standard [0xB2, 0x02, 0x03] = .ok (.mulRI 2 0x03, []) := by decide
theorem test_decode_divRI : decode OpcodeMap.standard [0xB6, 0x03, 0x0A] = .ok (.divRI 3 0x0A, []) := by decide
theorem test_decode_modRI : decode OpcodeMap.standard [0xB7, 0x00, 0x07] = .ok (.modRI 0 0x07, []) := by decide
theorem test_decode_jmp : decode OpcodeMap.standard [0xC0, 0xFE] = .ok (.jmp 0xFE, []) := by decide
theorem test_decode_jz : decode OpcodeMap.standard [0xC1, 0x05] = .ok (.jz 0x05, []) := by decide
theorem test_decode_jnz : decode OpcodeMap.standard [0xC2, 0xFB] = .ok (.jnz 0xFB, []) := by decide
theorem test_decode_js : decode OpcodeMap.standard [0xC3, 0xF0] = .ok (.js 0xF0, []) := by decide
theorem test_decode_jns : decode OpcodeMap.standard [0xC4, 0x04] = .ok (.jns 0x04, []) := by decide
theorem test_decode_jo : decode OpcodeMap.standard [0xC5, 0x10] = .ok (.jo 0x10, []) := by decide
theorem test_decode_jno : decode OpcodeMap.standard [0xC6, 0x80] = .ok (.jno 0x80, []) := by decide
theorem test_decode_movRI : decode OpcodeMap.standard [0xD0, 0x01, 0x77] = .ok (.movRI 1 0x77, []) := by decide
theorem test_decode_movRA : decode OpcodeMap.standard [0xD1, 0x02, 0x80] = .ok (.movRA 2 0x80, []) := by decide
theorem test_decode_movAI : decode OpcodeMap.standard [0xD2, 0x80, 0x55] = .ok (.movAI 0x80 0x55, []) := by decide
theorem test_decode_movRM : decode OpcodeMap.standard [0xD3, 0x02, 0x03] = .ok (.movRM 2 3, []) := by decide
theorem test_decode_movMR : decode OpcodeMap.standard [0xD4, 0x03, 0x01] = .ok (.movMR 3 1, []) := by decide
theorem test_decode_cmpRR : decode OpcodeMap.standard [0xDA, 0x00, 0x01] = .ok (.cmpRR 0 1, []) := by decide
theorem test_decode_cmpRI : decode OpcodeMap.standard [0xDB, 0x00, 0xFF] = .ok (.cmpRI 0 0xFF, []) := by decide
theorem test_decode_cmpRA : decode OpcodeMap.standard [0xDC, 0x01, 0x81] = .ok (.cmpRA 1 0x81, []) := by decide
theorem test_decode_push : decode OpcodeMap.standard [0xE0, 0x00] = .ok (.push 0, []) := by decide
theorem test_decode_pop : decode OpcodeMap.standard [0xE1, 0x01] = .ok (.pop 1, []) := by decide

/-- H2: FF is not in the table. -/
theorem test_decode_rejects_FF : decode OpcodeMap.standard [0xFF] = .error (.unknownOpcode 0xFF) := by decide
/-- H4: A7 is not in the table, whatever follows. -/
theorem test_decode_rejects_A7 : decode OpcodeMap.standard [0xA7, 0x00, 0x00] = .error (.unknownOpcode 0xA7) := by decide
theorem test_decode_rejects_truncated : decode OpcodeMap.standard [0xA0, 0x00] = .error (.truncated .addRR) := by decide
theorem test_decode_rejects_nothing : decode OpcodeMap.standard [] = .error .noBytes := by decide
/-- A later byte's bits count on from the first byte's. -/
theorem test_decodeTableWord_movAI : decodeTableWord 24 0x5580D2 = some (.movAI 0x80 0x55) := by decide
/-- Operand bytes the table word leaves out are zeros. -/
theorem test_decodeTableWord_short : decodeTableWord 8 0xD2 = some (.movAI 0 0) := by decide
theorem test_encode_movRI : encode OpcodeMap.standard (.movRI 1 0x77) = [0xD0, 0x01, 0x77] := by decide

/-! ## WellFormed: each check refuses an ill-formed term -/

/-- A map that gives SUB and MUL one byte. -/
theorem test_wf_refuses_shared_byte : OpcodeMap.wf { OpcodeMap.standard with mulRR := 0xA1 } = false := by decide
/-- A map that gives SUB a byte of another family. -/
theorem test_wf_refuses_wrong_nibble : OpcodeMap.wf { OpcodeMap.standard with subRR := 0xBF } = false := by decide
/-- A map that gives SUB the byte fixed for ADD. -/
theorem test_wf_refuses_fixed_byte : OpcodeMap.wf { OpcodeMap.standard with subRR := 0xA0 } = false := by decide
/-- A map that takes another byte of the family is legal. -/
theorem test_wf_accepts_other_map : OpcodeMap.wf { OpcodeMap.standard with subRR := 0xAF } = true := by decide
theorem test_wf_refuses_small_memory : Config.wf { defaultConfig with memSize := 0xBF } = false := by decide
theorem test_wf_refuses_large_memory : Config.wf { defaultConfig with memSize := 0x101 } = false := by decide
theorem test_wf_refuses_config_with_bad_map :
    Config.wf { defaultConfig with opcodes := { OpcodeMap.standard with mulRR := 0xA1 } } = false := by decide
theorem test_wf_accepts_bounds :
    (Config.wf { defaultConfig with memSize := 0xC0 } && Config.wf { defaultConfig with memSize := 0x100 }) = true :=
    by decide
theorem test_wf_refuses_long_image : Config.acceptsImage defaultConfig (List.replicate 0x101 0x00) = false := by
  rw [Config.acceptsImage, List.length_replicate]
  decide
theorem test_wf_accepts_full_image : Config.acceptsImage defaultConfig (List.replicate 0x100 0x00) = true := by
  rw [Config.acceptsImage, List.length_replicate]
  decide
theorem test_wf_refuses_first_register : Instr.wf .literal (.addRR 4 0) = false := by decide
theorem test_wf_refuses_second_register : Instr.wf .literal (.addRR 0 4) = false := by decide
theorem test_wf_accepts_literal_source : Instr.wf .literal (.movAI 0x80 5) = true := by decide
theorem test_wf_refuses_register_source : Instr.wf .register (.movAI 0x80 5) = false := by decide

/-! ## One step -/

/-- A Running core with the defaults of the vectors, the bytes at ip, registers `x`, and 9C at 40 and 55 at 80. -/
def coreAt (ip : Int) (bytes : List Byte) (x : Vector Byte 4 := #v[0, 0, 0, 0]) : State :=
  { State.reset with cfg := vectorConfig, x := x, ip := ip, mem := [(0x40, 0x9C), (0x80, 0x55)] }.placeBytes ip bytes

/-- Flags with only entry `k` set. -/
def flagSet (k : Fin 8) : Vector Bool 8 := resetFlags.set k true

/-- What a test looks at after a step. -/
def after (r : Result) (f : State → α) : Option α :=
  match r with
  | .next t => some (f t)
  | _ => none

/-- The registers and ip after a step. -/
def regs (s : State) : Option (Vector Byte 4 × Int) := after (step s) (fun t => (t.x, t.ip))
/-- The status after a step. -/
def statusOf (s : State) : Option Status := after (step s) (fun t => t.status)
/-- The flags and ip after a step. -/
def flagsOf (s : State) : Option (Vector Bool 8 × Int) := after (step s) (fun t => (t.F, t.ip))
/-- A cell and ip after a step. -/
def cellOf (a : Nat) (s : State) : Option (Option Byte × Int) := after (step s) (fun t => (t.cell a, t.ip))
/-- `s` under ARITH_RANGE = wrap. -/
def wrapping (s : State) : State := { s with cfg := { s.cfg with arithRange := .wrap } }
/-- `s` under JUMP_POLICY = flat. -/
def flat (s : State) : State := { s with cfg := { s.cfg with jumpPolicy := .flat } }
/-- `s` under MOVMI_SRC = register. -/
def regSource (s : State) : State := { s with cfg := { s.cfg with movmiSrc := .register } }

theorem test_A1_add : regs (coreAt 0 [0xA0, 0x00, 0x01] #v[0x03, 0x04, 0, 0]) = some (#v[0x07, 0x04, 0, 0], 3) := by decide
theorem test_A5_sub : regs (coreAt 0 [0xA1, 0x00, 0x01] #v[0x09, 0x04, 0, 0]) = some (#v[0x05, 0x04, 0, 0], 3) := by decide
theorem test_A6_sub_wrap :
    regs (wrapping (coreAt 0 [0xA1, 0x00, 0x01] #v[0x00, 0x01, 0, 0])) = some (#v[0xFF, 0x01, 0, 0], 3) := by decide
theorem test_A10_mul_wrap :
    regs (wrapping (coreAt 0 [0xA2, 0x00, 0x01] #v[0xFF, 0xFF, 0, 0])) = some (#v[0x01, 0xFF, 0, 0], 3) := by decide
theorem test_A10_mul_overflow :
    statusOf (coreAt 0 [0xA2, 0x00, 0x01] #v[0xFF, 0xFF, 0, 0]) = some (.faulted (.arithmeticOverflow 0 65025)) := by decide
theorem test_A13_div : regs (coreAt 0 [0xA3, 0x00, 0x01] #v[0xFF, 0x02, 0, 0]) = some (#v[0x7F, 0x02, 0, 0], 3) := by decide
theorem test_A17_div_by_zero :
    statusOf (coreAt 0 [0xA3, 0x00, 0x00] #v[0x00, 0, 0, 0]) = some (.faulted (.divideByZero 0)) := by decide
theorem test_A19_inc : regs (coreAt 0 [0xA4, 0x00] #v[0x7F, 0, 0, 0]) = some (#v[0x80, 0, 0, 0], 2) := by decide
theorem test_A20_inc_overflow :
    statusOf (coreAt 0 [0xA4, 0x00] #v[0xFF, 0, 0, 0]) = some (.faulted (.arithmeticOverflow 0 256)) := by decide
theorem test_A22_dec : regs (coreAt 0 [0xA5, 0x03] #v[0, 0, 0, 0x01]) = some (#v[0, 0, 0, 0], 2) := by decide
theorem test_A23_dec_underflow :
    statusOf (coreAt 0 [0xA5, 0x03] #v[0, 0, 0, 0]) = some (.faulted (.arithmeticUnderflow 0 (-1))) := by decide
theorem test_A25_mod : regs (coreAt 0 [0xA6, 0x00, 0x01] #v[0xFF, 0x10, 0, 0]) = some (#v[0x0F, 0x10, 0, 0], 3) := by decide
theorem test_A27_register_order :
    statusOf (coreAt 0 [0xA0, 0x05, 0x06] #v[0, 0, 0, 0]) = some (.faulted (.addressError .register 5 0)) := by decide
theorem test_A30_operand_fetch :
    statusOf (coreAt 0xfe [0xA0, 0x00] #v[0, 0, 0, 0]) = some (.faulted (.addressError .fetch 0x100 0xFE)) := by decide
theorem test_B11_add_literal_unsigned :
    regs (coreAt 0 [0xB0, 0x00, 0xFF] #v[0x00, 0, 0, 0]) = some (#v[0xFF, 0, 0, 0], 3) := by decide
theorem test_B13_literal_unchecked :
    regs (coreAt 0 [0xB0, 0x00, 0x05] #v[0x01, 0, 0, 0]) = some (#v[0x06, 0, 0, 0], 3) := by decide
theorem test_B4_sub_underflow :
    statusOf (coreAt 0 [0xB1, 0x00, 0x11] #v[0x10, 0, 0, 0]) = some (.faulted (.arithmeticUnderflow 0 (-1))) := by decide
theorem test_B5_mul : regs (coreAt 0 [0xB2, 0x00, 0x03] #v[0x07, 0, 0, 0]) = some (#v[0x15, 0, 0, 0], 3) := by decide
theorem test_B7_div : regs (coreAt 0 [0xB6, 0x00, 0x0A] #v[0x64, 0, 0, 0]) = some (#v[0x0A, 0, 0, 0], 3) := by decide
theorem test_B8_mod : regs (coreAt 0 [0xB7, 0x00, 0x07] #v[0x64, 0, 0, 0]) = some (#v[0x02, 0, 0, 0], 3) := by decide
theorem test_B10_mod_by_zero :
    statusOf (coreAt 0 [0xB7, 0x00, 0x00] #v[0x64, 0, 0, 0]) = some (.faulted (.divideByZero 0)) := by decide
theorem test_C6_jmp : flagsOf { coreAt 0xa [0xC0, 0xFE] with F := resetFlags } = some (resetFlags, 9) := by decide
theorem test_C3_jmp_negative :
    (after (step (coreAt 0 [0xC0, 0xFD])) (fun t => statusOf t)) =
    some (some (.faulted (.addressError .fetch (-2) (-2)))) := by decide
theorem test_C7_jz : flagsOf { coreAt 0x20 [0xC1, 0x05] with F := (flagSet 6) } = some ((flagSet 6), 0x25) := by decide
theorem test_C7_jz_flat :
    flagsOf (flat { coreAt 0x20 [0xC1, 0x05] with F := (flagSet 6) }) = some ((flagSet 6), 0x27) := by decide
theorem test_C9_jnz : flagsOf { coreAt 0x8 [0xC2, 0xFB] with F := resetFlags } = some (resetFlags, 0x03) := by decide
theorem test_C10_jnz_not_taken :
    flagsOf { coreAt 0x8 [0xC2, 0xFB] with F := (flagSet 6) } = some ((flagSet 6), 0x0A) := by decide
theorem test_C11_js : flagsOf { coreAt 0x10 [0xC3, 0xF0] with F := (flagSet 4) } = some ((flagSet 4), 0) := by decide
theorem test_C12_js_not_taken : flagsOf { coreAt 0x10 [0xC3, 0xF0] with F := resetFlags } = some (resetFlags, 0x12) :=
    by decide
theorem test_C13_jns : flagsOf { coreAt 0x10 [0xC4, 0x04] with F := resetFlags } = some (resetFlags, 0x14) := by decide
theorem test_C14_jns_not_taken :
    flagsOf { coreAt 0x10 [0xC4, 0x04] with F := (flagSet 4) } = some ((flagSet 4), 0x12) := by decide
theorem test_C15_jo : flagsOf { coreAt 0x30 [0xC5, 0x10] with F := (flagSet 5) } = some ((flagSet 5), 0x40) := by decide
theorem test_C16_jo_not_taken : flagsOf { coreAt 0x30 [0xC5, 0x10] with F := resetFlags } = some (resetFlags, 0x32) :=
    by decide
theorem test_C17_jno : flagsOf { coreAt 0x30 [0xC6, 0xFE] with F := resetFlags } = some (resetFlags, 0x2E) := by decide
theorem test_C18_jno_not_taken :
    flagsOf { coreAt 0x30 [0xC6, 0xFE] with F := (flagSet 5) } = some ((flagSet 5), 0x32) := by decide
theorem test_M1_mov_immediate : regs (coreAt 0 [0xD0, 0x00, 0x03] #v[0, 0, 0, 0]) = some (#v[0x03, 0, 0, 0], 3) := by decide
theorem test_M3_mov_direct : regs (coreAt 0 [0xD1, 0x01, 0x40] #v[0, 0, 0, 0]) = some (#v[0, 0x9C, 0, 0], 3) := by decide
/-- M4, at a cell nothing has written. -/
theorem test_M4_mov_uninitialised :
    statusOf (coreAt 0 [0xD1, 0x01, 0x41] #v[0, 0, 0, 0]) = some (.faulted (.addressError .data 0x41 0)) := by decide
theorem test_M7_mov_store_register :
    cellOf 0x80 (regSource (coreAt 0 [0xD2, 0x80, 0x01] #v[0, 0x2A, 0, 0])) = some (some 0x2A, 3) := by decide
theorem test_M10_mov_indirect : regs (coreAt 0 [0xD3, 0x00, 0x00] #v[0x80, 0, 0, 0]) = some (#v[0x55, 0, 0, 0], 3) :=
    by decide
theorem test_M13_mov_store_indirect :
    cellOf 5 (coreAt 0 [0xD4, 0x02, 0x01] #v[0, 0xEE, 0x05, 0]) = some (some 0xEE, 3) := by decide
theorem test_M14_store_then_fetch :
    (after (step (coreAt 0 [0xD2, 0x03, 0x00, 0xD0])) (fun t => (statusOf t, t.ip))) = some (some .halted, 3) := by decide
theorem test_K4_cmp_unsigned : flagsOf (coreAt 0 [0xDA, 0x00, 0x01] #v[0x80, 0x01, 0, 0]) = some (resetFlags, 3) := by decide
theorem test_K5_cmp_literal : flagsOf (coreAt 0 [0xDB, 0x00, 0xFF] #v[0xFE, 0, 0, 0]) = some (flagSet 4, 3) := by decide
/-- K7, at the cell 80 that holds 55. -/
theorem test_K7_cmp_memory : flagsOf (coreAt 0 [0xDC, 0x00, 0x80] #v[0x55, 0, 0, 0]) = some (flagSet 6, 3) := by decide
theorem test_K10_cmp_sticky :
    flagsOf { coreAt 0 [0xDA, 0x00, 0x01] #v[0x04, 0x04, 0, 0] with F := flagSet 4 } =
    some ((flagSet 4).set 6 true, 3) := by decide
theorem test_T1_push :
    (after (step (coreAt 0 [0xE0, 0x00] #v[0x2A, 0, 0, 0])) (fun t => (t.cell 0xBF, t.sp, t.ip))) =
    some (some 0x2A, 0xBE, 2) := by decide
theorem test_T5_push_below_memory :
    statusOf { coreAt 0 [0xE0, 0x00] with sp := -1 } = some (.faulted (.addressError .stack (-1) 0)) := by decide
/-- T2, at the cell 80 that holds 55. -/
theorem test_T2_pop :
    (after (step { coreAt 0 [0xE1, 0x01] with sp := 0x7F }) (fun t => (t.x, t.sp, t.ip))) =
    some (#v[0, 0x55, 0, 0], 0x80, 2) := by decide
theorem test_T3_pop_at_reset :
    statusOf (coreAt 0 [0xE1, 0x00] #v[0, 0, 0, 0]) = some (.faulted (.addressError .stack 0xC0 0)) := by decide
theorem test_H1_halt : (after (step (coreAt 0 [0x00])) (fun t => (t.status, t.ip))) = some (.halted, 0) := by decide
theorem test_H2_illegal : statusOf (coreAt 0 [0xFF] #v[0, 0, 0, 0]) = some (.faulted (.decodeError 0xFF 0)) := by decide
theorem test_H5_empty_image : statusOf State.reset = some (.faulted (.addressError .fetch 0 0)) := by decide
theorem test_H6_empty_image_zero :
    statusOf { State.reset with cfg := { vectorConfig with imageFill := .zero } } = some .halted := by decide
theorem test_withFetchWord_runs : regs (State.reset.withFetchWord 24 0x0500D0) = some (#v[0x05, 0, 0, 0], 3) := by decide

/-- The codes of 60_exceptions.md R200. -/
theorem test_fault_codes :
    [FaultCause.decodeError 0xFF 0, .addressError .fetch 0 0, .arithmeticOverflow 0 256, .arithmeticUnderflow 0 (-1),
      .divideByZero 0].map FaultCause.code = [1, 2, 3, 4, 5] := by decide

/-- STEP_LIMIT is none by default (00_scope.md R7). -/
theorem test_default_step_limit : defaultStepLimit = none := by decide

/-- P1, the source's program: loaded, run, halted at the 00 byte with 07 in AL. -/
theorem test_P1 : after (State.load (State.construct vectorConfig)
    [0xD0, 0x00, 0x03, 0xD0, 0x01, 0x04, 0xA0, 0x00, 0x01, 0x00]) (fun t => match t.run 4 with
      | .halted u => (u.x, u.ip, u.sp)
      | _ => (t.x, -1, -1)) = some (#v[0x07, 0x04, 0, 0], 9, 0xBF) := by decide

/-! ## Witnesses: the hypotheses of each obligation, met together by concrete values -/

theorem witness_DecodeOfEncode : OpcodeMap.wf { OpcodeMap.standard with subRR := 0xAF } = true := by decide

theorem witness_EncodeOfDecode : decode OpcodeMap.standard [0xA4, 0x02, 0x00] = .ok (.incR 2, [0x00]) := by decide

theorem witness_OpcodeByteAloneDecides :
    decode OpcodeMap.standard [0xD3, 0x00, 0xFF] = .ok (.movRM 0 0xFF, []) ∧
    decode OpcodeMap.standard [0xD3, 0x04, 0x00, 0x00] = .ok (.movRM 4 0, [0x00]) ∧
    OpcodeMap.standard.lookup 0xD3 = some .movRM ∧ [0xFF, 0x04].length = Op.movRM.operandCount := by decide

theorem witness_OpcodeMapsKeepConstraints :
    OpcodeMap.standard.wf = true ∧ Op.pop ≠ .halt ∧ OpcodeMap.standard.byteOf .pop = OpcodeMap.standard.byteOf .pop :=
    by decide

theorem witness_IllegalOpcodes :
    (coreAt 0 [0xE2]).status = .running ∧ (coreAt 0 [0xE2]).holds (coreAt 0 [0xE2]).ip 0xE2 ∧
    (∀ o ∈ Op.all, (coreAt 0 [0xE2]).cfg.opcodes.byteOf o ≠ 0xE2) := by decide

theorem witness_IllegalOpcodes_every_operation : ∀ o : Op, OpcodeMap.standard.byteOf o ≠ 0xE2 :=
    by intro o; cases o <;> decide

theorem witness_TwosComplement : 0x7F < 2 ^ 8 ∧ 0x7F < 2 ^ (8 - 1) ∧ 0x80 < 2 ^ 8 ∧ 2 ^ (8 - 1) ≤ 0x80 := by decide

theorem witness_StepRunsDecodedInstruction :
    (coreAt 0xFD [0xA0, 0x00, 0x01]).status = .running ∧
    (coreAt 0xFD [0xA0, 0x00, 0x01]).holdsBytes 0xFD [0xA0, 0x00, 0x01] ∧
    decode vectorConfig.opcodes [0xA0, 0x00, 0x01] = .ok (.addRR 0 1, []) :=
  ⟨by decide, ⟨by decide, by decide, by decide, trivial⟩, by decide⟩

/-- Each clause, at the ends of the memory and at an uninitialised cell. -/
theorem witness_FetchFaultsInOrder :
    (coreAt (-1) []).unreadable (-1) ∧ (coreAt 0x100 []).unreadable 0x100 ∧ (coreAt 0xFF []).unreadable 0xFF ∧
    (coreAt 0xFF [0xFF]).holds 0xFF 0xFF ∧ OpcodeMap.standard.lookup 0xFF = none ∧
    (coreAt 0xFF [0xC1]).holds 0xFF 0xC1 ∧ OpcodeMap.standard.lookup 0xC1 = some .jz ∧ 1 ≤ Op.jz.operandCount ∧
    (coreAt 0xFF [0xC1]).unreadable (0xFF + 1) ∧
    (coreAt 0xFE [0xA0, 0x00]).holds 0xFE 0xA0 ∧ OpcodeMap.standard.lookup 0xA0 = some .addRR ∧
    Op.addRR.operandCount = 2 ∧ (coreAt 0xFE [0xA0, 0x00]).holds (0xFE + 1) 0x00 ∧
    (coreAt 0xFE [0xA0, 0x00]).unreadable (0xFE + 2) := by decide

theorem witness_OnlyRunningCoresStep :
    (State.construct defaultConfig).status = .idle ∧ (State.reset.setStatus .halted).status = .halted ∧
    (State.reset.setStatus (.faulted (.divideByZero 0))).status = .faulted (.divideByZero 0) ∧
    State.reset.status = .running := by decide

/-- A state that is not Faulted: what `completed` asks. -/
theorem completed_of_running {t : State} (h : t.status = .running) : t.completed := by
  intro e he
  rw [h] at he
  cases he

theorem witness_EveryInstructionExecutes : ∃ t, step (coreAt 0 [0x00]) = .next t := ⟨_, rfl⟩

theorem witness_AdvancePastOperands : Op.incR.family ≠ .C ∧ Instr.incR 0 ≠ .halt ∧
    ∃ t, exec (.incR 0) (coreAt 0 []) = .next t ∧ (coreAt 0 []).completed ∧ t.completed :=
  ⟨by decide, by decide, _, rfl, completed_of_running rfl, completed_of_running rfl⟩

theorem witness_FaultsArePrecise :
    ∃ t, step (coreAt 5 [0xFF]) = .next t ∧ t.status = .faulted (.decodeError 0xFF 5) := ⟨_, rfl, rfl⟩

theorem witness_FaultsByInstruction : (coreAt 0 []).completed ∧
    ∃ t, exec (.decR 0) (coreAt 0 []) = .next t ∧ t.status = .faulted (.arithmeticUnderflow 0 (-1)) :=
  ⟨completed_of_running rfl, _, rfl, rfl⟩

/-- The first bad operand, when it is op1, op2 or both; and D2's second byte under MOVMI_SRC = register. -/
theorem witness_RegisterIdsAreChecked :
    ((Instr.addRR 4 5).regOperands .literal).find? (fun r => decide (3 < r.toNat)) = some 4 ∧
    ((Instr.addRR 3 4).regOperands .literal).find? (fun r => decide (3 < r.toNat)) = some 4 ∧
    ((Instr.movAI 0x80 0xFF).regOperands .register).find? (fun r => decide (3 < r.toNat)) = some 0xFF := by decide

theorem witness_RegisterIdsAreChecked_converse : (coreAt 0 []).completed ∧
    Faults (.push 4) (coreAt 0 []) (.addressError .register 4 0) := ⟨completed_of_running rfl, by rfl⟩

theorem witness_HaltStaysAtItsByte :
    ∃ t, step (coreAt 0xFF [0x00]) = .next t ∧ t.status = .halted := ⟨_, rfl, rfl⟩

/-- The longest image, and one byte more. -/
theorem witness_LoadInstallsImage :
    (List.replicate 0x100 (0x00 : Byte)).length ≤ State.reset.cfg.memSize ∧
    State.reset.cfg.memSize < (List.replicate 0x101 (0x00 : Byte)).length := by
  rw [List.length_replicate, List.length_replicate]
  decide

theorem witness_RunEndsAreFinal :
    (∃ t, State.continueRun 1 (coreAt 0 [0x00]) = .halted t) ∧
    (∃ t, State.continueRun 1 (coreAt 0 [0xFF]) = .faulted (.decodeError 0xFF 0) t) ∧
    (∃ t, (coreAt 0 [0x00]).runsTo (.halted t) (some 1)) ∧
    (∃ t, (coreAt 0 [0xFF]).runsTo (.faulted (.decodeError 0xFF 0) t) (some 1)) ∧
    ∃ t, (coreAt 0 [0x00]).runsTo (.cutShort t) (some 0) := ⟨⟨_, rfl⟩, ⟨_, rfl⟩, ⟨_, rfl⟩, ⟨_, rfl⟩, _, rfl⟩

/-- C2's program: a JMP to itself at 0 is a step to the same state. -/
theorem jump_to_itself_step : step (coreAt 0 [0xC0, 0xFF]).beginRun = .next (coreAt 0 [0xC0, 0xFF]).beginRun := by rfl

/-- Each of the three ways is some run's; the endless one both as the model defines it and as an infinite sequence. -/
theorem witness_RunEndsInExactlyOneWay :
    (∃ t, (coreAt 0 [0x00]).runsTo (.halted t)) ∧
    (∃ t, (coreAt 0 [0xFF]).runsTo (.faulted (.decodeError 0xFF 0) t)) ∧
    (coreAt 0 [0xC0, 0xFF]).runsTo .endless ∧
    ∃ f : Nat → State, f 0 = (coreAt 0 [0xC0, 0xFF]).beginRun ∧
      ∀ n, step (f n) = .next (f (n + 1)) ∧ (f (n + 1)).status = .running := by
  refine ⟨⟨_, 1, rfl⟩, ⟨_, 1, rfl⟩, fun n => ⟨(coreAt 0 [0xC0, 0xFF]).beginRun, ?_, rfl⟩,
    fun _ => (coreAt 0 [0xC0, 0xFF]).beginRun, rfl, fun _ => ⟨jump_to_itself_step, rfl⟩⟩
  induction n with
  | zero => exact continueRun_zero _ rfl
  | succ n ih => rw [continueRun_succ n _ _ rfl jump_to_itself_step, ih]

theorem witness_AddressTextNormalizes : ∀ c ∈ ['B', 'f', '9'], hexValue c ≠ none := by simp [hexValue]

/-- A byte at the last cell, an uninitialised cell, and the first addresses outside. -/
theorem witness_MemReadRule :
    (coreAt 0xFF [0x11]).holds 0xFF 0x11 ∧ (coreAt 0 [0x11]).holds 0 0x11 ∧ (coreAt 0 []).unreadable 0 ∧
    (coreAt 0 []).unreadable (-1) ∧ (coreAt 0 []).unreadable 0x100 := by decide

theorem witness_MemWriteRule :
    (0 : Int) < State.reset.cfg.memSize ∧ (0xFF : Int) < State.reset.cfg.memSize ∧
    (State.reset.cfg.memSize : Int) ≤ 0x100 ∧ (-1 : Int) < 0 := by decide

theorem witness_CommitEightBits :
    (0 : Int) ≤ 255 ∧ (255 : Int) < 256 ∧ (-1 : Int) < 0 ∧ (coreAt 0 []).cfg.arithRange = .fault ∧
    (wrapping (coreAt 0 [])).cfg.arithRange = .wrap := by decide

theorem witness_ArithFlagsLaw :
    (flagSet 0)[0] = true ∧ (∀ k : Fin 8, (flagSet 0)[k] = true → ((flagSet 0).set 5 true)[k] = true) ∧
    (∀ k : Fin 8, k ≠ 4 → k ≠ 5 → k ≠ 6 → ((flagSet 0).set 5 true)[k] = (flagSet 0)[k]) := by decide

theorem witness_CompareSetsFlags :
    (0x7F : Byte).toNat < (0x80 : Byte).toNat ∧ (0xFF : Byte) = 0xFF ∧ (0x00 : Byte).toNat < (0xFF : Byte).toNat := by decide

/-- Register ids 3 and 4, a result in range at both ends, above, below, and wrapped. -/
theorem witness_RegisterAddSubMul :
    (3 : Byte).toNat < 4 ∧ 4 ≤ (4 : Byte).toNat ∧
    zext8 0xFF = zext8 0xFE + zext8 0x01 ∧ zext8 0x00 = zext8 0x37 - zext8 0x37 ∧
    (255 : Int) < zext8 0xFF + zext8 0x01 ∧ zext8 0x00 - zext8 0x01 < 0 ∧ (255 : Int) < zext8 0x10 * zext8 0x10 ∧
    zext8 0x01 = (zext8 0xFF * zext8 0xFF) % 256 ∧ zext8 0xFF = (zext8 0x00 - zext8 0x01) % 256 ∧
    (coreAt 0 []).cfg.arithRange = .fault ∧ (wrapping (coreAt 0 [])).cfg.arithRange = .wrap := by decide

theorem witness_RegisterDivMod :
    (3 : Byte).toNat < 4 ∧ (coreAt 0 []).x[(3 : Byte).toNat] = 0 ∧ (coreAt 0 [] #v[0, 0, 0, 1]).x[(3 : Byte).toNat] ≠ 0 := by
  decide

theorem witness_IncrementDecrement :
    zext8 0xFF = zext8 0xFE + 1 ∧ (255 : Int) < zext8 0xFF + 1 ∧ zext8 0x00 = (zext8 0xFF + 1) % 256 ∧
    zext8 0x00 = zext8 0x01 - 1 ∧ zext8 0x00 - 1 < 0 ∧ zext8 0xFF = (zext8 0x00 - 1) % 256 := by decide

theorem witness_ImmediateAddSubMul :
    zext8 0xFF = zext8 0x00 + zext8 0xFF ∧ (255 : Int) < zext8 0x01 + zext8 0xFF ∧ zext8 0x10 - zext8 0x11 < 0 ∧
    (255 : Int) < zext8 0x80 * zext8 0x02 ∧ zext8 0x00 = (zext8 0x80 * zext8 0x02) % 256 := by decide

theorem witness_ImmediateDivMod : (0 : Byte) = 0 ∧ (1 : Byte) ≠ 0 ∧ (3 : Byte).toNat < 4 := by decide

/-- Both policies, and a target just outside the memory, above and below. -/
theorem witness_JumpUnconditional :
    (coreAt 0 []).cfg.jumpPolicy = .skip ∧ (flat (coreAt 0 [])).cfg.jumpPolicy = .flat ∧
    (∃ t, exec (.jmp 0x00) (coreAt 0xFF []) = .next t ∧ t.status = .running ∧ (t.cfg.memSize : Int) ≤ t.ip) ∧
    ∃ t, exec (.jmp 0xFE) (coreAt 0 []) = .next t ∧ t.status = .running ∧ t.ip < 0 :=
  ⟨rfl, rfl, ⟨_, rfl, rfl, by decide⟩, _, rfl, rfl, by decide⟩

theorem witness_JumpsConditional :
    (flagSet 6)[6] = true ∧ (flagSet 4)[4] = true ∧ (flagSet 5)[5] = true ∧
    resetFlags[6] = false ∧ resetFlags[4] = false ∧ resetFlags[5] = false ∧
    (coreAt 0 []).cfg.jumpPolicy = .skip ∧ (flat (coreAt 0 [])).cfg.jumpPolicy = .flat := by decide

theorem witness_JumpsConditional_badTarget :
    ∃ t, exec (.jnz 0xFF) (coreAt 0 []) = .next t ∧ t.status = .running ∧ t.ip < 0 := ⟨_, rfl, rfl, by decide⟩

theorem witness_MoveImmediate : (3 : RegId).toNat < 4 ∧ 4 ≤ (4 : RegId).toNat := by decide

theorem witness_MoveFromMemory :
    (3 : RegId).toNat < 4 ∧ (coreAt 0 []).holds (zext8 0x80) 0x55 ∧ (coreAt 0 []).unreadable (zext8 0xFF) := by decide

/-- Both sources; an address inside, and with MEM_SIZE = C0 one at the end. -/
theorem witness_MoveImmediateToMemory :
    (coreAt 0 []).cfg.movmiSrc = .literal ∧ (regSource (coreAt 0 [])).cfg.movmiSrc = .register ∧
    (3 : RegId).toNat < 4 ∧ zext8 0xFF < (coreAt 0 []).cfg.memSize ∧
    (({ vectorConfig with memSize := 0xC0 } : Config).memSize : Int) ≤ zext8 0xC0 := by decide

theorem witness_MoveIndirectToRegister :
    (3 : RegId).toNat < 4 ∧
    (coreAt 0 [] #v[0, 0, 0, 0x80]).holds (zext8 (coreAt 0 [] #v[0, 0, 0, 0x80]).x[(3 : RegId).toNat]) 0x55 ∧
    (coreAt 0 []).unreadable (zext8 (coreAt 0 []).x[(0 : RegId).toNat]) := by decide

theorem witness_MoveRegisterToIndirect :
    (3 : RegId).toNat < 4 ∧ zext8 (coreAt 0 [] #v[0, 0, 0, 0xFF]).x[(3 : RegId).toNat] < (coreAt 0 []).cfg.memSize ∧
    (({ vectorConfig with memSize :=
    0xC0 } : Config).memSize : Int) ≤ zext8 (coreAt 0 [] #v[0, 0, 0, 0xC0]).x[(3 : RegId).toNat] := by
  decide

theorem witness_CompareInstructions :
    (3 : RegId).toNat < 4 ∧ (0xFE : Byte).toNat < (0xFF : Byte).toNat ∧ (coreAt 0 []).holds (zext8 0x80) 0x55 ∧
    (coreAt 0 []).unreadable (zext8 0x81) := by decide

/-- sp at both ends of the memory and just outside them. -/
theorem witness_PushRegister :
    (3 : RegId).toNat < 4 ∧ (0 : Int) < State.reset.cfg.memSize ∧ (0xFF : Int) < State.reset.cfg.memSize ∧ (-1 : Int) < 0 ∧
    (State.reset.cfg.memSize : Int) ≤ 0x100 := by decide

theorem witness_PopRegister :
    (3 : RegId).toNat < 4 ∧ ({ coreAt 0 [] with sp := 0x7F } : State).holds (0x7F + 1) 0x55 ∧
    ({ coreAt 0 [] with sp := 0xFF } : State).unreadable (0xFF + 1) ∧
    (coreAt 0 []).unreadable ((coreAt 0 []).sp + 1) := by decide

theorem witness_FrameOfArithmetic :
    (Instr.addRI 0 1) ∈ ([.addRR 0 1, .subRR 0 1, .mulRR 0 1, .divRR 0 1, .modRR 0 1, .incR 0, .decR 0,
      .addRI 0 1, .subRI 0 1, .mulRI 0 1, .divRI 0 1, .modRI 0 1] : List Instr) ∧
    ∃ t, exec (.addRI 0 1) (coreAt 0 []) = .next t ∧ t.x = #v[1, 0, 0, 0] := ⟨by decide, _, rfl, by decide⟩

theorem witness_FrameOfMovesToRegister :
    ∃ t, exec (.movRA 0 0x80) (coreAt 0 []) = .next t ∧ t.x = #v[0x55, 0, 0, 0] := ⟨_, rfl, by decide⟩

theorem witness_FrameOfStores :
    (∃ t, exec (.movAI 0x81 0x12) (coreAt 0 []) = .next t ∧ t.cell 0x81 = some 0x12) ∧
    ∃ t, exec (.movMR 0 1) (coreAt 0 [] #v[0x81, 0x12, 0, 0]) = .next t ∧ t.cell 0x81 = some 0x12 :=
  ⟨⟨_, rfl, by decide⟩, _, rfl, by decide⟩

theorem witness_FrameOfStores_badRegister : 4 ≤ (4 : RegId).toNat ∧
    ∃ t, exec (.movMR 4 1) (coreAt 0 []) = .next t := ⟨by decide, _, rfl⟩

theorem witness_FrameOfComparesJumpsHalt :
    (∃ t, exec (.cmpRI 0 1) (coreAt 0 []) = .next t ∧ t.F = flagSet 4) ∧
    (∃ t, exec (.jno 0x10) (coreAt 0 []) = .next t ∧ t.ip = 0x10) ∧
    ∃ t, exec .halt (coreAt 0 []) = .next t ∧ t.status = .halted := ⟨⟨_, rfl, by decide⟩, ⟨_, rfl, by decide⟩, _, rfl, rfl⟩

theorem witness_FrameOfStack :
    (∃ t, exec (.push 0) (coreAt 0 []) = .next t ∧ t.sp = 0xBE) ∧
    ∃ t, exec (.pop 0) { coreAt 0 [] with sp := 0x7F } = .next t ∧ t.sp = 0x80 := ⟨⟨_, rfl, rfl⟩, _, rfl, rfl⟩

/-- A state with a program, data and flags that meets the invariant, and its step. -/
theorem witness_StepKeepsInvariant : ({ coreAt 0 [0xE0, 0x00] with sp := 0, F := flagSet 6 } : State).Inv ∧
    ∃ t, step { coreAt 0 [0xE0, 0x00] with sp := 0, F := flagSet 6 } = .next t ∧ t.sp = -1 :=
  ⟨⟨by decide, by decide, by decide, by decide, by decide, by decide, by decide⟩, _, rfl, by decide⟩

theorem witness_HostKeepsInvariant : vectorConfig.wf = true ∧ (State.construct vectorConfig).Inv ∧
    ∃ t, (State.construct vectorConfig).load [0x00] = .next t :=
  ⟨by decide, ⟨by decide, by decide, by decide, by decide, by decide, by decide, by decide⟩, _, rfl⟩

theorem witness_FlagsAreSticky :
    (∃ t, step { coreAt 0 [0xDB, 0x00, 0x01] with F := flagSet 6 } = .next t ∧ (flagSet 6)[6] = true) ∧
    writesFlags (.pop 0) = false ∧ (∃ t, exec (.pop 0) (coreAt 0 []) = .next t) ∧
    ∃ t, step (coreAt 0 [0xFF]) = .next t ∧ t.status = .faulted (.decodeError 0xFF 0) :=
  ⟨⟨_, rfl, by decide⟩, by decide, ⟨_, rfl⟩, _, rfl, rfl⟩

theorem witness_FlagsAreReadByConditionalJumpsOnly :
    readsFlags (.cmpRR 0 1) = false ∧ ((flagSet 6).set 4 true)[6] = (flagSet 6)[6] ∧ (flagSet 6)[4] = resetFlags[4] ∧
    (flagSet 6)[5] = resetFlags[5] := by decide

theorem witness_RegistersReadAndWritten :
    (∀ r, writesReg (.movRM 0 1) = some r → r.toNat ≠ ((1 : Fin 4) : Nat)) ∧
    (∀ r ∈ readsRegs .literal (.movRM 0 1), r.toNat ≠ ((0 : Fin 4) : Nat)) ∧ writesReg (.movRM 0 1) = some 0 ∧
    (coreAt 0 [] #v[0, 0x80, 0, 0]).completed ∧
    ∃ t t', exec (.movRM 0 1) (coreAt 0 [] #v[0, 0x80, 0, 0]) = .next t ∧
      exec (.movRM 0 1) ((coreAt 0 [] #v[0, 0x80, 0, 0]).setReg 0 9) = .next t' ∧ t.completed :=
  ⟨fun r h => by cases h; decide, by decide, rfl, completed_of_running rfl, _, _, rfl, rfl, completed_of_running rfl⟩

theorem witness_OnlyPushPopUseSp : usesStack .halt = false ∧ (coreAt 0 []).completed ∧
    (∃ t, exec (.push 0) (coreAt 0 []) = .next t ∧ t.completed) ∧
    ({ coreAt 0 [] with sp := 0x7F } : State).completed ∧
    ∃ t, exec (.pop 0) { coreAt 0 [] with sp := 0x7F } = .next t ∧ t.completed :=
  ⟨by decide, completed_of_running rfl, ⟨_, rfl, completed_of_running rfl⟩, completed_of_running rfl, _, rfl,
    completed_of_running rfl⟩

theorem witness_ConfigurationIsImmutable : (∃ t, step (coreAt 0 [0x00]) = .next t) ∧
    ∃ t, (coreAt 0 []).load [0x00] = .next t := ⟨⟨_, rfl⟩, _, rfl⟩

theorem witness_StoreIsSeenByNextFetch :
    (coreAt 0 []).completed ∧ (coreAt 0 []).status = .running ∧ (coreAt 0 []).cfg.movmiSrc = .literal ∧
    zext8 0x03 = (coreAt 0 []).ip + 3 ∧ (∃ t, exec (.movAI 0x03 0x00) (coreAt 0 []) = .next t ∧ t.completed) ∧
    (∃ t, exec (.movMR 0 1) (coreAt 0 []) = .next t ∧ t.completed) ∧
    ∃ t, exec (.push 3) (coreAt 0 []) = .next t ∧ t.completed :=
  ⟨completed_of_running rfl, rfl, rfl, by decide, ⟨_, rfl, completed_of_running rfl⟩,
    ⟨_, rfl, completed_of_running rfl⟩, _, rfl, completed_of_running rfl⟩

theorem witness_PushThenPop :
    (0 : Int) ≤ State.reset.sp ∧ (1 : Int) ≤ State.reset.sp ∧ State.reset.sp < State.reset.cfg.memSize ∧
    (3 : RegId).toNat < 4 := by decide

theorem witness_JumpToItselfNeverEnds :
    (coreAt 5 [0xC0, 0xFF]).status = .running ∧ (coreAt 5 [0xC0, 0xFF]).cfg.opcodes.wf = true ∧
    (coreAt 5 [0xC0, 0xFF]).cfg.jumpPolicy = .skip ∧
    (coreAt 5 [0xC0, 0xFF]).holdsBytes 5 [(coreAt 5 [0xC0, 0xFF]).cfg.opcodes.byteOf .jmp, 0xFF] :=
  ⟨by decide, by decide, by decide, ⟨by decide, by decide, trivial⟩⟩

end Sys2Proof.Tests
end

/-! ## What an instruction's effect does to each component of the state

Read off the nine shapes of `Effect`, one lemma per component, so that the claims below split no effect again. -/

namespace Sys2Proof.Machine

/-- How the flags may change in a step: set entries stay set, and only N, V and Z are written (10_state.md R26, R28). -/
def FlagsGrow (F G : Vector Bool 8) : Prop :=
  ∀ k : Fin 8, (F[k] = true → G[k] = true) ∧ (k ≠ 4 → k ≠ 5 → k ≠ 6 → G[k] = F[k])

theorem FlagsGrow.refl (F : Vector Bool 8) : FlagsGrow F F := fun _ => ⟨id, fun _ _ _ => rfl⟩

theorem cmpFlags_grow (a b : Int) (F : Vector Bool 8) : FlagsGrow F (cmpFlags a b F) := fun k => by
  rw [cmpFlags_get]
  exact ⟨fun h => by simp [h], fun h4 _ h6 => by simp [beq_eq_false_iff_ne.mpr h4, beq_eq_false_iff_ne.mpr h6]⟩

theorem arithFlags_grow (sel : ArithFlags) (op : ArithOp) (a b r : Int) (F : Vector Bool 8) :
    FlagsGrow F (arithFlags sel op a b r F) := by
  cases sel with
  | referenceNone => exact FlagsGrow.refl F
  | uninterpreted =>
    intro k
    rw [arithFlags_free_get]
    exact ⟨fun h => by simp [h], fun h4 h5 h6 => by simp [h4, h5, h6]⟩

theorem State.unusedFlagsClear_of_grow {s t : State} (h : FlagsGrow s.F t.F) (hs : s.unusedFlagsClear) :
    t.unusedFlagsClear := by
  have hk : ∀ k : Fin 8, k ≠ 4 → k ≠ 5 → k ≠ 6 → s.F[k] = false → t.F[k] = false :=
    fun k h4 h5 h6 hF => ((h k).2 h4 h5 h6).trans hF
  obtain ⟨h0, h1, h2, h3, h7⟩ := hs
  exact ⟨hk 0 (by decide) (by decide) (by decide) h0, hk 1 (by decide) (by decide) (by decide) h1,
    hk 2 (by decide) (by decide) (by decide) h2, hk 3 (by decide) (by decide) (by decide) h3,
    hk 7 (by decide) (by decide) (by decide) h7⟩

theorem State.completed_of_running {s : State} (h : s.status = .running) : s.completed := by
  intro e he
  rw [h] at he
  cases he

section
variable {i : Instr} {s t : State}

theorem Effect.cfg_eq (h : Effect i s t) : t.cfg = s.cfg := by cases h <;> rfl

theorem Effect.flags_grow (h : Effect i s t) : FlagsGrow s.F t.F := by
  cases h with
  | arith => exact arithFlags_grow _ _ _ _ _ _
  | compare => exact cmpFlags_grow _ _ _
  | _ => exact FlagsGrow.refl _

/-- Only arithmetic and compares write the flags (10_state.md R26). -/
theorem Effect.F_eq (h : Effect i s t) (hw : writesFlags i = false) : t.F = s.F := by
  cases h with
  | arith _ _ _ _ _ _ hop =>
    rw [writesFlags] at hw
    split at hw
    iterate 3 cases hw
    rcases hop with h | h <;> simp [h] at hw
  | compare _ _ hop => rcases hop with h | h | h <;> simp [writesFlags, h] at hw
  | _ => rfl

/-- Only the register of the instruction's row is written (10_state.md R23). -/
theorem Effect.x_eq (h : Effect i s t) {k : Fin 4}
    (hk : ∀ r, writesReg i = some r → r.toNat ≠ k) : t.x[k] = s.x[k] := by
  have hne : ∀ (d : Fin 4) (v : Byte), (∃ q, writesReg i = some q ∧ q.toNat = d) → (s.setReg d v).x[k] = s.x[k] := by
    rintro d v ⟨q, hq, hd⟩
    exact Vector.getElem_set_ne d.isLt k.isLt (hd ▸ hk q hq)
  cases h with
  | arith _ _ _ _ d v _ hd => exact hne d v hd
  | move d v _ hd => exact hne d v hd
  | pop d v _ _ hd => exact hne d v hd
  | _ => rfl

/-- Memory changes by a write to one cell that exists, if at all. -/
theorem Effect.mem_cases (h : Effect i s t) :
    t.mem = s.mem ∨ ∃ a v, s.inRange a = true ∧ t.mem = Memory.write s.cfg.imageFill s.mem a.toNat v := by
  cases h with
  | store a v _ ha => exact .inr ⟨a, v, ha, rfl⟩
  | push v _ ha => exact .inr ⟨s.sp, v, ha, rfl⟩
  | _ => exact .inl rfl

/-- sp changes by a PUSH or POP whose access was in range, if at all (10_state.md R34, R36); a stack instruction that leaves
it took a fault. -/
theorem Effect.sp_cases (h : Effect i s t) :
    (t.sp = s.sp ∧ (usesStack i = true → ∃ e, t.status = .faulted e)) ∨
    (i.op = .push ∧ s.inRange s.sp = true ∧ t.sp = s.sp - 1) ∨
    (i.op = .pop ∧ s.inRange (s.sp + 1) = true ∧ t.sp = s.sp + 1) := by
  have hno : usesStack i = false → usesStack i = true → ∃ e, t.status = .faulted e := fun h0 h1 => by simp [h0] at h1
  cases h with
  | fault e => exact .inl ⟨rfl, fun _ => ⟨e, rfl⟩⟩
  | halt hop => exact .inl ⟨rfl, hno (by simp [hop, usesStack, Instr.op, Op.family])⟩
  | arith _ _ _ _ _ _ hop => exact .inl ⟨rfl, hno (by rcases hop with hop | hop <;> simp [usesStack, hop])⟩
  | jump _ hop => exact .inl ⟨rfl, hno (by simp [usesStack, hop])⟩
  | move _ _ hop => exact .inl ⟨rfl, hno (by rcases hop with hop | hop | hop <;> simp [usesStack, hop, Op.family])⟩
  | store _ _ hop => exact .inl ⟨rfl, hno (by rcases hop with hop | hop <;> simp [usesStack, hop, Op.family])⟩
  | compare _ _ hop => exact .inl ⟨rfl, hno (by rcases hop with hop | hop | hop <;> simp [usesStack, hop, Op.family])⟩
  | push _ hop ha => exact .inr (.inl ⟨hop, ha, rfl⟩)
  | pop _ _ hop ha => exact .inr (.inr ⟨hop, ha, rfl⟩)

/-- Status changes by halting or by taking one of the instruction's faults, which changes nothing else (60_exceptions.md
R204). -/
theorem Effect.status_cases (h : Effect i s t) :
    t.status = s.status ∨ t.status = .halted ∨ ∃ e, s.execFault i e ∧ t = s.setStatus (.faulted e) := by
  cases h with
  | fault e he => exact .inr (.inr ⟨e, he, rfl⟩)
  | halt => exact .inr (.inl rfl)
  | _ => exact .inl rfl

/-- From a state without a recorded fault, a fault in the next state was taken by the instruction. -/
theorem Effect.of_faulted {e : FaultCause} (h : Effect i s t) (hs : s.completed) (ht : t.status = .faulted e) :
    s.execFault i e ∧ t = s.setStatus (.faulted e) := by
  rcases h.status_cases with h | h | ⟨e', he, rfl⟩
  · exact absurd (h ▸ ht) (hs e)
  · rw [h] at ht
    cases ht
  · cases ht
    exact ⟨he, rfl⟩

/-- What an A* or B* instruction does: it takes a fault, or it writes its destination register and the flags and advances. -/
theorem Effect.arith_cases (h : Effect i s t) (hi : i.op.family = .A ∨ i.op.family = .B) :
    (∃ e, t = s.setStatus (.faulted e)) ∨
    ∃ op a b r v, ∃ d : Fin 4, (∃ q, writesReg i = some q ∧ q.toNat = d) ∧
      t = ((s.setF (arithFlags s.cfg.arithFlags op a b r s.F)).setReg d v).advance i.op.operandCount := by
  cases h with
  | fault e => exact .inl ⟨e, rfl⟩
  | arith op a b r d v _ hd => exact .inr ⟨op, a, b, r, v, d, hd, rfl⟩
  | halt h => simp [h, Instr.op, Op.family] at hi
  | jump _ h => simp [h] at hi
  | move _ _ h => rcases h with h | h | h <;> simp [h, Op.family] at hi
  | store _ _ h => rcases h with h | h <;> simp [h, Op.family] at hi
  | compare _ _ h => rcases h with h | h | h <;> simp [h, Op.family] at hi
  | push _ h => simp [h, Op.family] at hi
  | pop _ _ h => simp [h, Op.family] at hi

end

end Sys2Proof.Machine

/-! ## The invariant -/

namespace Sys2Proof.Machine

/-- Taking a fault keeps the invariant when the fault's record belongs to the state (60_exceptions.md R202, R204). -/
theorem State.Inv.setFaulted {s : State} {e : FaultCause} (hs : s.Inv)
    (he : (s.setStatus (.faulted e)).faultRecordOk = true) : (s.setStatus (.faulted e)).Inv :=
  { hs with record := he }

theorem State.execFault.recordOk {s : State} {i : Instr} {e : FaultCause} (h : s.execFault i e) :
    (s.setStatus (.faulted e)).faultRecordOk = true := by
  obtain ⟨_, hip, hr⟩ := h
  cases e with
  | arithmeticOverflow | arithmeticUnderflow => exact Bool.and_eq_true_iff.mpr ⟨decide_eq_true hip, decide_eq_true hr⟩
  | decodeError | addressError | divideByZero => exact decide_eq_true hip

theorem State.fetchFault.recordOk {s : State} {e : FaultCause} (h : s.fetchFault e) :
    (s.setStatus (.faulted e)).faultRecordOk = true := by
  obtain ⟨_, rfl⟩ | ⟨_, rfl⟩ := h <;> exact decide_eq_true rfl

/-- An instruction executed by a Running core leaves no fault record but that of the fault it took. -/
theorem Effect.recordOk {i : Instr} {s t : State} (h : Effect i s t) (hr : s.status = .running) :
    t.faultRecordOk = true := by
  rcases h.status_cases with h | h | ⟨e, he, rfl⟩
  · simp [State.faultRecordOk, h, hr]
  · simp [State.faultRecordOk, h]
  · exact he.recordOk

/-- Every instruction executed by a Running core keeps the invariant. -/
theorem Effect.inv {i : Instr} {s t : State} (h : Effect i s t) (hs : s.Inv) (hr : s.status = .running) : t.Inv where
  config := h.cfg_eq ▸ hs.config
  memory := by
    rw [h.cfg_eq]
    rcases h.mem_cases with hm | ⟨a, v, _, hm⟩ <;> rw [hm]
    · exact hs.memory
    · exact Memory.write_wf _ _ _ _ hs.memory
  cells := by
    rw [h.cfg_eq]
    rcases h.mem_cases with hm | ⟨a, v, ha, hm⟩ <;> rw [hm]
    · exact hs.cells
    · exact Memory.write_within _ _ _ _ _ (storeOutcome_inRange s a ha) hs.cells
  stackLow := by
    rcases h.sp_cases with ⟨hsp, _⟩ | ⟨_, ha, hsp⟩ | ⟨_, ha, hsp⟩ <;> rw [hsp]
    · exact hs.stackLow
    · have := (State.inRange_iff _ _).mp ha; omega
    · have := (State.inRange_iff _ _).mp ha; omega
  stackHigh := by
    rw [h.cfg_eq]
    rcases h.sp_cases with ⟨hsp, _⟩ | ⟨_, ha, hsp⟩ | ⟨_, ha, hsp⟩ <;> rw [hsp]
    · exact hs.stackHigh
    · have := (State.inRange_iff _ _).mp ha; omega
    · have := (State.inRange_iff _ _).mp ha; omega
  flags := State.unusedFlagsClear_of_grow h.flags_grow hs.flags
  record := h.recordOk hr

/-- Settles O49: the step executed an instruction, whose effect keeps each component of the invariant, or took a fault of the
fetch, which changes status alone and is recorded at ip. -/
theorem stepKeepsInvariant : Obligations.StepKeepsInvariant := by
  intro s t hs hstep
  obtain ⟨hr, ⟨i, _, hexec⟩ | ⟨e, he, rfl⟩⟩ := step_cases s t hstep
  · exact (exec_next_effect i s t hexec).inv hs hr
  · exact hs.setFaulted he.recordOk

end Sys2Proof.Machine

/-! ## The register check (10_state.md R21)

Each shared operation checks its register operands in operand order, before anything else can fault; a claim about an
instruction then only names the operation it is. -/

namespace Sys2Proof.Machine

section
variable {i : Instr} {s : State} {r q : RegId}

theorem arithRegReg_checks {op : ArithOp} (h : exec i s = arithRegReg op r q s) : ChecksRegs i s r q :=
  ⟨fun hr => h.trans (arithRegReg_badFirst op r q s hr), fun hr hq => h.trans (arithRegReg_badSecond op r q s hr hq)⟩

theorem arithReg_checks {op : ArithOp} (h : exec i s = arithReg op r s) : ChecksReg i s r :=
  fun hr => h.trans (arithReg_bad op r s hr)

theorem arithRegImm_checks {op : ArithOp} {k : Literal} (h : exec i s = arithRegImm op r k s) : ChecksReg i s r :=
  fun hr => h.trans (arithRegImm_bad op r k s hr)

theorem loadTo_checks {addr : Except FaultCause Int} (h : exec i s = loadTo r addr s) : ChecksReg i s r := fun hr => by
  simp only [Faults, h, loadTo, regIndex_error s r hr, settle_error]
  rfl

theorem compareWith_checks {right : Except FaultCause Byte} (h : exec i s = compareWith r right s) :
    ChecksReg i s r := fun hr => by
  simp only [Faults, h, compareWith, reg_error s r hr, settle_error]
  rfl

end

theorem movRI_checks (r : RegId) (k : Literal) (s : State) : ChecksReg (.movRI r k) s r := fun hr => by
  simp only [Faults, exec, execMovRI, regIndex_error s r hr, settle_error]
  rfl

theorem movRM_checks (r q : RegId) (s : State) : ChecksRegs (.movRM r q) s r q :=
  ⟨loadTo_checks rfl, fun hr hq => by
    simp only [Faults, exec, execMovRM, loadTo, regIndex_ok s r hr, reg_error s q hq, settle_error]
    rfl⟩

theorem movAI_checks (a : Address) (k : Literal) (s : State) (h : s.cfg.movmiSrc = .register) :
    ChecksReg (.movAI a k) s k := fun hk => by
  simp only [Faults, exec, execMovAI, movmiSource, h, reg_error s k hk, settle_error]
  rfl

theorem movMR_checks (r q : RegId) (s : State) : ChecksRegs (.movMR r q) s r q := by
  refine ⟨fun hr => ?_, fun hr hq => ?_⟩
  · simp only [Faults, exec, execMovMR, reg_error s r hr, settle_error]
    rfl
  · simp only [Faults, exec, execMovMR, reg_ok s r hr, reg_error s q hq, settle_error]
    rfl

theorem cmpRR_checks (r q : RegId) (s : State) : ChecksRegs (.cmpRR r q) s r q :=
  ⟨compareWith_checks rfl, fun hr hq => by
    simp only [Faults, exec, execCmpRR, compareWith, reg_ok s r hr, reg_error s q hq, settle_error]
    rfl⟩

theorem push_checks (r : RegId) (s : State) : ChecksReg (.push r) s r := fun hr => by
  simp only [Faults, exec, execPush, reg_error s r hr, settle_error]
  rfl

theorem pop_checks (r : RegId) (s : State) : ChecksReg (.pop r) s r := fun hr => by
  simp only [Faults, exec, execPop, regIndex_error s r hr, settle_error]
  rfl

/-- The first of some register operands that names no register. -/
def firstBadReg (operands : List RegId) : Option RegId := operands.find? (fun r => decide (3 < r.toNat))

theorem firstBadReg_cons {r v : RegId} {rest : List RegId} (h : firstBadReg (r :: rest) = some v) :
    (v = r ∧ 4 ≤ r.toNat) ∨ (r.toNat < 4 ∧ firstBadReg rest = some v) := by
  rw [firstBadReg, List.find?_cons] at h
  split at h
  next hr =>
    cases h
    exact .inl ⟨rfl, of_decide_eq_true hr⟩
  next hr => exact .inr ⟨by have := of_decide_eq_false hr; omega, h⟩

theorem ChecksReg.faults {i : Instr} {s : State} {r v : RegId} (hc : ChecksReg i s r) (h : firstBadReg [r] = some v) :
    Faults i s (.addressError .register (zext8 v) s.ip) := by
  obtain ⟨rfl, hr⟩ | ⟨_, h⟩ := firstBadReg_cons h
  · exact hc hr
  · cases h

theorem ChecksRegs.faults {i : Instr} {s : State} {r q v : RegId} (hc : ChecksRegs i s r q)
    (h : firstBadReg [r, q] = some v) : Faults i s (.addressError .register (zext8 v) s.ip) := by
  obtain ⟨rfl, hr⟩ | ⟨hr, h⟩ := firstBadReg_cons h
  · exact hc.1 hr
  · exact ChecksReg.faults (hc.2 hr) h

/-- The first register operand above 3 is the fault an instruction takes, whatever else could fault. -/
theorem exec_firstBadReg (i : Instr) (s : State) (v : RegId) (h : firstBadReg (i.regOperands s.cfg.movmiSrc) = some v) :
    Faults i s (.addressError .register (zext8 v) s.ip) := by
  cases i with
  | halt | jmp | jz | jnz | js | jns | jo | jno => cases h
  | addRR | subRR | mulRR | divRR | modRR => exact ChecksRegs.faults (arithRegReg_checks rfl) h
  | incR | decR => exact ChecksReg.faults (arithReg_checks rfl) h
  | addRI | subRI | mulRI | divRI | modRI => exact ChecksReg.faults (arithRegImm_checks rfl) h
  | movRI r k => exact ChecksReg.faults (movRI_checks r k s) h
  | movRA r a => exact ChecksReg.faults (loadTo_checks (addr := .ok (zext8 a)) rfl) h
  | movAI a k =>
    cases hsrc : s.cfg.movmiSrc with
    | literal => simp [Instr.regOperands, hsrc, firstBadReg] at h
    | register =>
      rw [hsrc] at h
      exact ChecksReg.faults (movAI_checks a k s hsrc) h
  | movRM r q => exact ChecksRegs.faults (movRM_checks r q s) h
  | movMR r q => exact ChecksRegs.faults (movMR_checks r q s) h
  | cmpRR r q => exact ChecksRegs.faults (cmpRR_checks r q s) h
  | cmpRI r k => exact ChecksReg.faults (compareWith_checks (right := .ok k) rfl) h
  | cmpRA r a => exact ChecksReg.faults (compareWith_checks (right := memRead .data s (zext8 a)) rfl) h
  | push r => exact ChecksReg.faults (push_checks r s) h
  | pop r => exact ChecksReg.faults (pop_checks r s) h

/-- Settles O15: each operation's checks come first, in operand order; conversely `execFault` says what a register fault an
instruction takes records. -/
theorem registerIdsAreChecked : Obligations.RegisterIdsAreChecked := by
  intro i s
  refine ⟨fun v h => exec_firstBadReg i s v h, fun hs v a h => ?_⟩
  obtain ⟨⟨_, hip, r, hr, h4, hv⟩, _⟩ := (exec_next_effect i s _ h).of_faulted hs rfl
  exact ⟨hip, r, hr, h4, hv⟩

end Sys2Proof.Machine

/-! ## Frames: arithmetic, flags, configuration -/

namespace Sys2Proof.Machine

/-- Settles O44: an A* or B* instruction takes a fault, which changes status alone, or writes its destination register and
the flags, which only grow. -/
theorem frameOfArithmetic : Obligations.FrameOfArithmetic := by
  intro r q s t i hmem hexec
  have hi : (i.op.family = .A ∨ i.op.family = .B) ∧ writesReg i = some r := by
    simp only [List.mem_cons, List.not_mem_nil, or_false] at hmem
    rcases hmem with rfl | rfl | rfl | rfl | rfl | rfl | rfl | rfl | rfl | rfl | rfl | rfl <;>
      simp [Instr.op, Op.family, writesReg]
  obtain ⟨hfam, hw⟩ := hi
  have hE := exec_next_effect i s t hexec
  have hx : ∀ k : Fin 4, (k : Nat) ≠ r.toNat → t.x[k] = s.x[k] := fun k hk => hE.x_eq fun q' hq' => by
    rw [hw] at hq'
    cases hq'
    exact hk.symm
  have hF := hE.flags_grow
  obtain ⟨e, rfl⟩ | ⟨_, _, _, _, _, _, _, rfl⟩ := hE.arith_cases hfam
  · exact ⟨hx, fun k => (hF k).2, fun k => (hF k).1, rfl, fun _ => rfl, rfl, .inr ⟨e, rfl⟩⟩
  · exact ⟨hx, fun k => (hF k).2, fun k => (hF k).1, rfl, fun _ => rfl, rfl, .inl rfl⟩

theorem step_flags_grow {s t : State} (h : step s = .next t) : FlagsGrow s.F t.F := by
  obtain ⟨_, ⟨i, _, hexec⟩ | ⟨e, _, rfl⟩⟩ := step_cases s t h
  · exact (exec_next_effect i s t hexec).flags_grow
  · exact FlagsGrow.refl _

/-- A step that faults changes status alone (60_exceptions.md R204). -/
theorem step_eq_of_faulted {s t : State} {e : FaultCause} (h : step s = .next t) (ht : t.status = .faulted e) :
    t = s.setStatus (.faulted e) := by
  obtain ⟨hr, ⟨i, _, hexec⟩ | ⟨e', _, rfl⟩⟩ := step_cases s t h
  · exact ((exec_next_effect i s t hexec).of_faulted (State.completed_of_running hr) ht).2
  · cases ht
    rfl

/-- Settles O52: the flags grow in every step, an instruction's effect says which ones write them, a fault changes status
alone, and the reset value has no entry set. -/
theorem flagsAreSticky : Obligations.FlagsAreSticky := by
  refine ⟨fun s t h => step_flags_grow h, fun i s t h hw => (exec_next_effect i s t h).F_eq hw, fun s t e h ht => ?_, ?_⟩
  · rw [step_eq_of_faulted h ht, State.setStatus_F]
  · intro s k
    rw [State.beginRun_F]
    fin_cases k <;> rfl

theorem step_cfg_eq {s t : State} (h : step s = .next t) : t.cfg = s.cfg := by
  obtain ⟨_, ⟨i, _, hexec⟩ | ⟨e, _, rfl⟩⟩ := step_cases s t h
  · exact (exec_next_effect i s t hexec).cfg_eq
  · rfl

theorem load_cfg_eq {s t : State} {image : List Byte} (h : s.load image = .next t) : t.cfg = s.cfg := by
  unfold State.load at h
  split at h
  · cases h
    rfl
  · cases h

/-- Settles O56: no effect of an instruction, no fault and no host operation writes the configuration. -/
theorem configurationIsImmutable : Obligations.ConfigurationIsImmutable :=
  ⟨fun _ _ h => step_cfg_eq h, fun _ _ _ h => load_cfg_eq h, State.beginRun_cfg⟩

end Sys2Proof.Machine

/-! ## Status, reset and the snapshot's flags byte -/

namespace Sys2Proof.Machine

theorem step_idle {s : State} (h : s.status = .idle) : step s = .fault .stepWhileIdle := by
  unfold step
  rw [h]

theorem step_halted {s : State} (h : s.status = .halted) : step s = .fault .stepAfterHalt := by
  unfold step
  rw [h]

theorem step_faulted {s : State} {e : FaultCause} (h : s.status = .faulted e) :
    step s = .fault (.stepAfterFault e) := by
  unfold step
  rw [h]

/-- Settles O10: by the status; a Running core's step is `step_running`. -/
theorem onlyRunningCoresStep : Obligations.OnlyRunningCoresStep := fun s =>
  ⟨step_idle, step_halted, fun _ => step_faulted, fun h => (step_running s h).imp fun _ ht => ht.1⟩

theorem resetRegs_get (k : Fin 4) : resetRegs[k] = 0x00 := by fin_cases k <;> rfl

/-- Settles O17: both resets put the same constants in place. -/
theorem resetState : Obligations.ResetState :=
  ⟨fun _ => ⟨resetRegs_get, rfl, rfl, rfl⟩, resetRegs_get, rfl, rfl, rfl⟩

theorem bitOf_getElem (b : Bool) (n m : Nat) (hm : m < 8) : (bitOf b n)[m] = (b && decide (n = m)) := by
  cases b with
  | false => simp [bitOf]
  | true =>
    rw [bitOf, if_pos rfl, ← BitVec.getLsbD_eq_getElem, BitVec.getLsbD_ofNat, Nat.testBit_two_pow]
    simp [hm]

theorem flagsByte_getLsbD (F : Vector Bool 8) (k : Fin 8) : (flagsByte F).getLsbD (7 - (k : Nat)) = F[k] := by
  fin_cases k <;> simp [flagsByte, bitOf_getElem]

/-- A byte has the bit of a one-bit mask exactly when their conjunction is not 0. -/
theorem getLsbD_iff_and_twoPow (b : Byte) (n : Nat) (hn : n < 8) :
    b.getLsbD n = true ↔ b &&& BitVec.twoPow 8 n ≠ 0 := by
  have hmask : BitVec.twoPow 8 n ≠ 0 := fun h => by simpa [hn] using congrArg (·.getLsbD n) h
  rw [BitVec.and_twoPow]
  cases b.getLsbD n with
  | false => simp
  | true => simpa using hmask

/-- Settles O21: the bits of the byte are the entries, and the masks 02, 04 and 08 are the bits 1, 2 and 3. -/
theorem flagsByteOfSnapshot : Obligations.FlagsByteOfSnapshot := fun s => by
  have hbit := flagsByte_getLsbD s.F
  refine ⟨hbit, ?_, ?_, ?_⟩
  · rw [show s.F[6] = s.snapshot.flags.getLsbD 1 from (hbit 6).symm]
    exact getLsbD_iff_and_twoPow _ 1 (by decide)
  · rw [show s.F[5] = s.snapshot.flags.getLsbD 2 from (hbit 5).symm]
    exact getLsbD_iff_and_twoPow _ 2 (by decide)
  · rw [show s.F[4] = s.snapshot.flags.getLsbD 3 from (hbit 4).symm]
    exact getLsbD_iff_and_twoPow _ 3 (by decide)

end Sys2Proof.Machine

/-! ## What an instruction reads

`Update i u`: executing `i` can be the transformation `u`, whose data (register values, addresses, targets, faults) are fixed
before it is applied. Two states that agree on what the instruction reads are transformed by the same `u`
(`exec_sameUpdate`), so a component the instruction does not read has no influence beyond what `u` keeps of it. -/

namespace Sys2Proof.Machine

/-- The shapes of `Effect` as functions of the state they are applied to. -/
inductive Update (i : Instr) : (State → State) → Prop where
  | fault (e : FaultCause) : Update i fun s => s.setStatus (.faulted e)
  | halt (hw : writesReg i = none) : Update i fun s => s.setStatus .halted
  | arith (op : ArithOp) (a b res : Int) (d : Fin 4) (v : Byte) (n : Nat) (hs : usesStack i = false)
      (hd : ∃ r, writesReg i = some r ∧ r.toNat = d) :
      Update i fun s => ((s.setF (arithFlags s.cfg.arithFlags op a b res s.F)).setReg d v).advance n
  | jump (a : Int) (hw : writesReg i = none) : Update i fun s => s.setIp a
  | move (d : Fin 4) (v : Byte) (hs : usesStack i = false) (hd : ∃ r, writesReg i = some r ∧ r.toNat = d) :
      Update i fun s => (s.setReg d v).advance 2
  | store (m : Memory) (hw : writesReg i = none) : Update i fun s => (s.setMem m).advance 2
  | compare (a b : Byte) (hw : writesReg i = none) : Update i (compare a b)
  | push (m : Memory) (hs : usesStack i = true) (hw : writesReg i = none) :
      Update i fun s => ((s.setMem m).setSp (s.sp - 1)).advance 1
  | pop (d : Fin 4) (v : Byte) (hs : usesStack i = true) (hd : ∃ r, writesReg i = some r ∧ r.toNat = d) :
      Update i fun s => ((s.setReg d v).setSp (s.sp + 1)).advance 1

theorem State.setReg_setReg (s : State) (k : Fin 4) (v z : Byte) : (s.setReg k v).setReg k z = s.setReg k z := by
  simp only [State.setReg, Vector.set_set]

theorem State.setReg_overwrite (s : State) (d k : Fin 4) (v w z : Byte) :
    ((s.setReg k v).setReg d w).setReg k z = (s.setReg d w).setReg k z := by
  have hx : ((s.x.set k v).set d w).set k z = (s.x.set d w).set k z := by
    ext j hj
    simp only [Vector.getElem_set]
    split <;> rfl
  simp only [State.setReg, hx]

section
variable {i : Instr} {u : State → State}

theorem Update.setF (hu : Update i u) (s : State) (f : Vector Bool 8) : (u (s.setF f)).setF f = (u s).setF f := by
  cases hu <;> rfl

theorem Update.setSp (hu : Update i u) (hi : usesStack i = false) (s : State) (p : Int) :
    u (s.setSp p) = (u s).setSp p := by
  cases hu with
  | push _ hs | pop _ _ hs => simp [hs] at hi
  | _ => rfl

theorem Update.setReg (hu : Update i u) (s : State) (k : Fin 4) (v z : Byte) :
    (u (s.setReg k v)).setReg k z = (u s).setReg k z := by
  have hkeep : u (s.setReg k v) = (u s).setReg k v → (u (s.setReg k v)).setReg k z = (u s).setReg k z := fun h => by
    rw [h, State.setReg_setReg]
  cases hu with
  | arith op a b res d w n =>
    exact State.setReg_overwrite ((s.setF (arithFlags s.cfg.arithFlags op a b res s.F)).advance n) d k v w z
  | move d w => exact State.setReg_overwrite (s.advance 2) d k v w z
  | pop d w => exact State.setReg_overwrite ((s.setSp (s.sp + 1)).advance 1) d k v w z
  | fault | halt | jump | store | compare | push => exact hkeep rfl

/-- The value an instruction that completes writes to its register does not depend on the state it is written in. -/
theorem Update.written (hu : Update i u) {r : RegId} (hr : writesReg i = some r) {k : Fin 4} (hk : r.toNat = k)
    {s : State} (hc : (u s).completed) (s' : State) : (u s').x[k] = (u s).x[k] := by
  have hdest : ∀ d : Fin 4, (∃ q, writesReg i = some q ∧ q.toNat = d) → d = k := by
    rintro d ⟨q, hq, hd⟩
    rw [hr] at hq
    cases hq
    exact Fin.ext (hd ▸ hk)
  cases hu with
  | fault e => exact absurd rfl (hc e)
  | arith _ _ _ _ d _ _ _ hd => cases hdest d hd; simp
  | move d _ _ hd => cases hdest d hd; simp
  | pop d _ _ hd => cases hdest d hd; simp
  | halt hw | jump _ hw | store _ hw | compare _ _ hw | push _ _ hw => simp [hw] at hr

end

/-- `s'` agrees with `s` on what executing `i` reads: the configuration, ip and memory, the registers of its row of the table
of R23, sp for the stack instructions and the flags for the conditional jumps. -/
structure State.AgreesFor (i : Instr) (s s' : State) : Prop where
  cfg : s'.cfg = s.cfg
  ip : s'.ip = s.ip
  mem : s'.mem = s.mem
  regs : ∀ r ∈ readsRegs s.cfg.movmiSrc i, ∀ h : r.toNat < 4, s'.x[r.toNat] = s.x[r.toNat]
  sp : usesStack i = true → s'.sp = s.sp
  flags : readsFlags i = true → s'.F = s.F

/-- Both results are next states, by the same update. -/
def SameUpdate (i : Instr) (s s' : State) (r r' : Result) : Prop :=
  ∃ u, Update i u ∧ r = .next (u s) ∧ r' = .next (u s')

theorem settle_error_sameUpdate (i : Instr) (s s' : State) (e : FaultCause) :
    SameUpdate i s s' (settle s (.error e)) (settle s' (.error e)) := ⟨_, .fault e, rfl, rfl⟩

section
variable {i : Instr} {s s' : State} (h : s.AgreesFor i s')
include h

theorem State.AgreesFor.regIndex_eq (r : RegId) : regIndex s' r = regIndex s r := by
  simp only [regIndex, h.ip]

theorem State.AgreesFor.reg_eq {r : RegId} (hr : r ∈ readsRegs s.cfg.movmiSrc i) : reg s' r = reg s r := by
  rcases Nat.lt_or_ge r.toNat 4 with h4 | h4
  · rw [reg_ok s' r h4, reg_ok s r h4, h.regs r hr h4]
  · rw [reg_error s' r h4, reg_error s r h4, h.ip]

theorem State.AgreesFor.inRange_eq (a : Int) : s'.inRange a = s.inRange a := by
  simp only [State.inRange, h.cfg]

theorem State.AgreesFor.memRead_eq (kind : AccessKind) (a : Int) : memRead kind s' a = memRead kind s a := by
  simp only [memRead, h.inRange_eq, State.cell, h.cfg, h.mem, h.ip]

theorem State.AgreesFor.memWrite_same (kind : AccessKind) (a : Int) (v : Byte) :
    (∃ m, memWrite kind s a v = .ok (s.setMem m) ∧ memWrite kind s' a v = .ok (s'.setMem m)) ∨
    ∃ e, memWrite kind s a v = .error e ∧ memWrite kind s' a v = .error e := by
  simp only [memWrite, h.inRange_eq, h.cfg, h.mem, h.ip]
  cases s.inRange a with
  | true => exact .inl ⟨_, rfl, rfl⟩
  | false => exact .inr ⟨_, rfl, rfl⟩

theorem State.AgreesFor.arith_sameUpdate (op : ArithOp) (d : Fin 4) (a b : Int) (n : Nat) (hs : usesStack i = false)
    (hd : ∃ r, writesReg i = some r ∧ r.toNat = d) :
    SameUpdate i s s' (settle s (arith op d a b n s)) (settle s' (arith op d a b n s')) := by
  have hdiv : divideCheck s' op b = divideCheck s op b := by simp only [divideCheck, h.ip]
  have hcommit : commit8 s' (arithResult op a b) = commit8 s (arithResult op a b) := by
    simp only [commit8, h.cfg, h.ip]
  simp only [arith, hdiv, hcommit]
  cases divideCheck s op b with
  | error e => exact settle_error_sameUpdate i s s' e
  | ok _ =>
    cases commit8 s (arithResult op a b) with
    | error e => exact settle_error_sameUpdate i s s' e
    | ok v => exact ⟨_, .arith op a b _ d v n hs hd, rfl, rfl⟩

theorem State.AgreesFor.arithRegReg_sameUpdate (op : ArithOp) {r q : RegId} (hs : usesStack i = false)
    (hw : writesReg i = some r) (hrd : readsRegs s.cfg.movmiSrc i = [r, q]) :
    SameUpdate i s s' (arithRegReg op r q s) (arithRegReg op r q s') := by
  simp only [arithRegReg, h.regIndex_eq, h.reg_eq (r := q) (by simp [hrd])]
  rcases regIndex_cases s r with ⟨hr, h1⟩ | ⟨_, h1⟩
  · rw [h1]
    cases reg s q with
    | error e => exact settle_error_sameUpdate i s s' e
    | ok b =>
      have hx : s'.x[r.toNat] = s.x[r.toNat] := h.regs r (by simp [hrd]) hr
      simp only [Fin.getElem_fin, hx]
      exact h.arith_sameUpdate op _ _ _ 2 hs ⟨r, hw, rfl⟩
  · rw [h1]
    exact settle_error_sameUpdate i s s' _

theorem State.AgreesFor.arithReg_sameUpdate (op : ArithOp) {r : RegId} (hs : usesStack i = false)
    (hw : writesReg i = some r) (hrd : readsRegs s.cfg.movmiSrc i = [r]) :
    SameUpdate i s s' (arithReg op r s) (arithReg op r s') := by
  simp only [arithReg, h.regIndex_eq]
  rcases regIndex_cases s r with ⟨hr, h1⟩ | ⟨_, h1⟩
  · have hx : s'.x[r.toNat] = s.x[r.toNat] := h.regs r (by simp [hrd]) hr
    simp only [h1, Fin.getElem_fin, hx]
    exact h.arith_sameUpdate op _ _ _ 1 hs ⟨r, hw, rfl⟩
  · rw [h1]
    exact settle_error_sameUpdate i s s' _

theorem State.AgreesFor.arithRegImm_sameUpdate (op : ArithOp) {r : RegId} (k : Literal) (hs : usesStack i = false)
    (hw : writesReg i = some r) (hrd : readsRegs s.cfg.movmiSrc i = [r]) :
    SameUpdate i s s' (arithRegImm op r k s) (arithRegImm op r k s') := by
  simp only [arithRegImm, h.regIndex_eq]
  rcases regIndex_cases s r with ⟨hr, h1⟩ | ⟨_, h1⟩
  · have hx : s'.x[r.toNat] = s.x[r.toNat] := h.regs r (by simp [hrd]) hr
    simp only [h1, Fin.getElem_fin, hx]
    exact h.arith_sameUpdate op _ _ _ 2 hs ⟨r, hw, rfl⟩
  · rw [h1]
    exact settle_error_sameUpdate i s s' _

theorem State.AgreesFor.compareWith_sameUpdate {r : RegId} (right : Except FaultCause Byte) (hw : writesReg i = none)
    (hrd : r ∈ readsRegs s.cfg.movmiSrc i) :
    SameUpdate i s s' (compareWith r right s) (compareWith r right s') := by
  simp only [compareWith, h.reg_eq hrd]
  cases reg s r with
  | error e => exact settle_error_sameUpdate i s s' e
  | ok a =>
    cases right with
    | error e => exact settle_error_sameUpdate i s s' e
    | ok b => exact ⟨_, .compare a b hw, rfl, rfl⟩

theorem State.AgreesFor.loadTo_sameUpdate {r : RegId} (addr : Except FaultCause Int) (hs : usesStack i = false)
    (hw : writesReg i = some r) : SameUpdate i s s' (loadTo r addr s) (loadTo r addr s') := by
  simp only [loadTo, h.regIndex_eq]
  rcases regIndex_cases s r with ⟨hr, h1⟩ | ⟨_, h1⟩
  · rw [h1]
    cases addr with
    | error e => exact settle_error_sameUpdate i s s' e
    | ok a =>
      simp only [h.memRead_eq]
      cases memRead .data s a with
      | error e => exact settle_error_sameUpdate i s s' e
      | ok v => exact ⟨_, .move _ v hs ⟨r, hw, rfl⟩, rfl, rfl⟩
  · rw [h1]
    exact settle_error_sameUpdate i s s' _

theorem State.AgreesFor.storeAt_sameUpdate (a : Int) (v : Byte) (hw : writesReg i = none) :
    SameUpdate i s s' (settle s (storeAt a v s)) (settle s' (storeAt a v s')) := by
  unfold storeAt
  obtain ⟨m, h1, h2⟩ | ⟨e, h1, h2⟩ := h.memWrite_same .data a v
  · rw [h1, h2]
    exact ⟨_, .store m hw, rfl, rfl⟩
  · rw [h1, h2]
    exact settle_error_sameUpdate i s s' e

theorem State.AgreesFor.jumpIf_sameUpdate (cond : Bool) (d : Offset) (hw : writesReg i = none) :
    SameUpdate i s s' (jumpIf cond d s) (jumpIf cond d s') := by
  simp only [jumpIf, h.cfg, h.ip]
  exact ⟨_, .jump _ hw, rfl, rfl⟩

end

/-- Two states that agree on what an instruction reads are changed by it in the same way. -/
theorem exec_sameUpdate (i : Instr) (s s' : State) (h : s.AgreesFor i s') : SameUpdate i s s' (exec i s) (exec i s') := by
  cases i with
  | halt => exact ⟨_, .halt rfl, rfl, rfl⟩
  | addRR | subRR | mulRR | divRR | modRR => exact h.arithRegReg_sameUpdate _ rfl rfl rfl
  | incR | decR => exact h.arithReg_sameUpdate _ rfl rfl rfl
  | addRI | subRI | mulRI | divRI | modRI => exact h.arithRegImm_sameUpdate _ _ rfl rfl rfl
  | jmp d =>
    simp only [exec, execJmp, h.cfg, h.ip]
    exact ⟨_, .jump _ rfl, rfl, rfl⟩
  | jz | jnz | js | jns | jo | jno =>
    simp only [exec, execJz, execJnz, execJs, execJns, execJo, execJno, h.flags rfl]
    exact h.jumpIf_sameUpdate _ _ rfl
  | movRI r k =>
    simp only [exec, execMovRI, h.regIndex_eq]
    rcases regIndex_cases s r with ⟨hr, h1⟩ | ⟨_, h1⟩
    · rw [h1]
      exact ⟨_, .move _ k rfl ⟨r, rfl, rfl⟩, rfl, rfl⟩
    · rw [h1]
      exact settle_error_sameUpdate _ s s' _
  | movRA r a => exact h.loadTo_sameUpdate (.ok (zext8 a)) rfl rfl
  | movAI a k =>
    have hsrc : movmiSource s' k = movmiSource s k := by
      simp only [movmiSource, h.cfg]
      split
      next => rfl
      next hr => exact h.reg_eq (by simp [readsRegs, hr])
    simp only [exec, execMovAI, hsrc]
    cases movmiSource s k with
    | error e => exact settle_error_sameUpdate _ s s' e
    | ok v => exact h.storeAt_sameUpdate _ v rfl
  | movRM r q =>
    simp only [exec, execMovRM, h.reg_eq (r := q) (by simp [readsRegs])]
    exact h.loadTo_sameUpdate _ rfl rfl
  | movMR r q =>
    simp only [exec, execMovMR, h.reg_eq (r := r) (by simp [readsRegs]), h.reg_eq (r := q) (by simp [readsRegs])]
    cases reg s r with
    | error e => exact settle_error_sameUpdate _ s s' e
    | ok a =>
      cases reg s q with
      | error e => exact settle_error_sameUpdate _ s s' e
      | ok v => exact h.storeAt_sameUpdate _ v rfl
  | cmpRR r q =>
    simp only [exec, execCmpRR, h.reg_eq (r := q) (by simp [readsRegs])]
    exact h.compareWith_sameUpdate _ rfl (by simp [readsRegs])
  | cmpRI r k => exact h.compareWith_sameUpdate (.ok k) rfl (by simp [readsRegs])
  | cmpRA r a =>
    simp only [exec, execCmpRA, h.memRead_eq]
    exact h.compareWith_sameUpdate _ rfl (by simp [readsRegs])
  | push r =>
    simp only [exec, execPush, h.reg_eq (r := r) (by simp [readsRegs]), h.sp rfl]
    cases reg s r with
    | error e => exact settle_error_sameUpdate _ s s' e
    | ok v =>
      obtain ⟨m, h1, h2⟩ | ⟨e, h1, h2⟩ := h.memWrite_same .stack s.sp v
      · simp only [h1, h2]
        exact ⟨_, .push m rfl rfl, rfl, by rw [← h.sp rfl]; rfl⟩
      · simp only [h1, h2]
        exact settle_error_sameUpdate _ s s' e
  | pop r =>
    simp only [exec, execPop, h.regIndex_eq, h.sp rfl, h.memRead_eq]
    rcases regIndex_cases s r with ⟨hr, h1⟩ | ⟨_, h1⟩
    · rw [h1]
      cases memRead .stack s (s.sp + 1) with
      | error e => exact settle_error_sameUpdate _ s s' e
      | ok v => exact ⟨_, .pop _ v rfl ⟨r, rfl, rfl⟩, rfl, by rw [← h.sp rfl]; rfl⟩
    · rw [h1]
      exact settle_error_sameUpdate _ s s' _

end Sys2Proof.Machine

/-! ## Noninterference of flags, sp and registers -/

namespace Sys2Proof.Machine

theorem State.agreesFor_setF {i : Instr} (hi : readsFlags i = false) (s : State) (f : Vector Bool 8) :
    s.AgreesFor i (s.setF f) where
  cfg := rfl
  ip := rfl
  mem := rfl
  regs _ _ _ := rfl
  sp _ := rfl
  flags h := by simp [hi] at h

theorem State.agreesFor_setSp {i : Instr} (hi : usesStack i = false) (s : State) (p : Int) :
    s.AgreesFor i (s.setSp p) where
  cfg := rfl
  ip := rfl
  mem := rfl
  regs _ _ _ := rfl
  sp h := by simp [hi] at h
  flags _ := rfl

theorem State.agreesFor_setReg {i : Instr} {s : State} {k : Fin 4}
    (hi : ∀ r ∈ readsRegs s.cfg.movmiSrc i, r.toNat ≠ k) (v : Byte) : s.AgreesFor i (s.setReg k v) where
  cfg := rfl
  ip := rfl
  mem := rfl
  regs r hr h := Vector.getElem_set_ne k.isLt h (hi r hr).symm
  sp _ := rfl
  flags _ := rfl

/-- A conditional jump with its condition kept does the same under any flags. -/
theorem jumpIf_setF {c c' : Bool} (hc : c' = c) (d : Offset) (s : State) (f : Vector Bool 8) :
    jumpIf c' d (s.setF f) = Result.map (fun t => t.setF f) (jumpIf c d s) := by
  subst hc
  rfl

/-- Settles O53: states that differ in the flags alone get the same update, which keeps what it was given of them; a
conditional jump's condition is the one entry it names. -/
theorem flagsAreReadByConditionalJumpsOnly : Obligations.FlagsAreReadByConditionalJumpsOnly := by
  refine ⟨fun i s f hi => ?_, fun d s f => ?_⟩
  · obtain ⟨u, hu, h1, h2⟩ := exec_sameUpdate i s _ (s.agreesFor_setF hi f)
    change Result.map (fun t => t.setF f) (exec i (s.setF f)) = Result.map (fun t => t.setF f) (exec i s)
    rw [h1, h2]
    exact congrArg Host.Outcome.next (hu.setF s f)
  · simp only [List.forall_mem_cons, List.not_mem_nil, false_imp_iff, implies_true, and_true]
    exact ⟨fun h => ⟨jumpIf_setF h d s f, jumpIf_setF (congrArg not h) d s f⟩,
      fun h => ⟨jumpIf_setF h d s f, jumpIf_setF (congrArg not h) d s f⟩,
      fun h => ⟨jumpIf_setF h d s f, jumpIf_setF (congrArg not h) d s f⟩⟩

/-- Settles O54: states that differ in one register the instruction does not read get the same update; it overwrites that
register with the same value or keeps it. -/
theorem registersReadAndWritten : Obligations.RegistersReadAndWritten := by
  intro i s k
  refine ⟨fun t h hk => (exec_next_effect i s t h).x_eq hk, fun v hi => ?_⟩
  obtain ⟨u, hu, h1, h2⟩ := exec_sameUpdate i s _ (State.agreesFor_setReg hi v)
  rw [h1, h2]
  refine ⟨congrArg Host.Outcome.next (hu.setReg s k v 0), fun r t t' hr hk _ ht ht' hc => ?_⟩
  cases ht
  cases ht'
  exact hu.written hr hk hc _

/-- Settles O55: states that differ in sp alone get the same update, which keeps sp unless the instruction is PUSH or
POP; what those do to it is `Effect.sp_cases`. -/
theorem onlyPushPopUseSp : Obligations.OnlyPushPopUseSp := by
  refine ⟨fun i s p hi => ?_, fun r s t _ h hc => ?_, fun r s t _ h hc => ?_⟩
  · obtain ⟨u, hu, h1, h2⟩ := exec_sameUpdate i s _ (s.agreesFor_setSp hi p)
    rw [show ({ s with sp := p } : State) = s.setSp p from rfl, h1, h2]
    exact congrArg Host.Outcome.next (hu.setSp hi s p)
  · rcases (exec_next_effect _ s t h).sp_cases with ⟨_, hf⟩ | ⟨_, _, hsp⟩ | ⟨hop, _⟩
    · obtain ⟨e, he⟩ := hf rfl
      exact absurd he (hc e)
    · exact hsp
    · cases hop
  · rcases (exec_next_effect _ s t h).sp_cases with ⟨_, hf⟩ | ⟨hop, _⟩ | ⟨_, _, hsp⟩
    · obtain ⟨e, he⟩ := hf rfl
      exact absurd he (hc e)
    · cases hop
    · exact hsp

end Sys2Proof.Machine

/-! ## Memory: reads, writes, and the image load installs -/

namespace Sys2Proof.Machine

/-- Settles O23: a cell that holds a byte and one that cannot be read are the two cases of MemRead. -/
theorem memReadRule : Obligations.MemReadRule := fun kind s a =>
  ⟨memRead_of_holds kind s a, memRead_of_unreadable kind s a⟩

/-- Settles O24: the one cell written reads as the byte, and a read of any other cell does not see the write. -/
theorem memWriteRule : Obligations.MemWriteRule := fun kind s a v =>
  ⟨fun h0 h1 => ⟨Memory.write s.cfg.imageFill s.mem a.toNat v, memWrite_of_inRange kind s a v h0 h1,
      Memory.read_write_self _ _ _ _, fun _ hb => Memory.read_write_other _ _ _ _ _ (by omega)⟩,
    memWrite_of_outside kind s a v⟩

/-- An image that fits is installed (20_memory.md R58). -/
theorem State.load_of_fits {s : State} {image : List Byte} (h : image.length ≤ s.cfg.memSize) :
    s.load image = .next ((s.setMem (Memory.ofImage s.cfg.imageFill 0 image)).setStatus .idle) :=
  if_pos (decide_eq_true h)

/-- An image longer than the memory is refused (20_memory.md R58; D30). -/
theorem State.load_of_tooLong {s : State} {image : List Byte} (h : s.cfg.memSize < image.length) :
    s.load image = .refused (.imageTooLong image.length) :=
  if_neg (by simp [Config.acceptsImage, h])

/-- Settles O18: `Memory.ofImage_read` says what the cells of the installed image hold, below its length and beyond it. -/
theorem loadInstallsImage : Obligations.LoadInstallsImage := by
  intro s image
  refine ⟨fun h => ⟨_, State.load_of_fits h, rfl, rfl, fun k hk => ?_, fun a ha => ?_⟩, State.load_of_tooLong,
    State.beginRun_mem s⟩
  · rw [State.setStatus_cell, State.setMem_cell, Memory.ofImage_read, dif_pos (by omega)]
    rfl
  · rw [State.setStatus_cell, State.setMem_cell, Memory.ofImage_read, dif_neg (by omega)]
    cases s.cfg.imageFill <;> rfl

end Sys2Proof.Machine

/-! ## A store is seen by the next fetch (20_memory.md R63) -/

namespace Sys2Proof

/-- 00 is HALT under every opcode map, legal or not: HALT stands first in the table (30_encoding.md R80, R81). -/
theorem OpcodeMap.lookup_zero (m : OpcodeMap) : m.lookup 0x00 = some .halt := rfl

end Sys2Proof

namespace Sys2Proof.Machine

section
variable {s t : State}

/-- A settled step without a recorded fault is the instruction's writes. -/
theorem eq_ok_of_settle_completed {r : Except FaultCause State} (h : settle s r = .next t) (ht : t.completed) :
    r = .ok t := by
  rcases settle_cases s r with ⟨u, hr, hu⟩ | ⟨e, _, he⟩
  · rw [hu] at h
    cases h
    exact hr
  · rw [he] at h
    cases h
    exact absurd rfl (ht e)

/-- The write that answers `t` is `t`'s memory, and its cell holds the byte. -/
theorem memWrite_ok {kind : AccessKind} {a : Int} {v : Byte} (h : memWrite kind s a v = .ok t) :
    t = s.setMem (Memory.write s.cfg.imageFill s.mem a.toNat v) ∧ t.holds a v := by
  rcases memWrite_cases kind s a v with ⟨ha, hw⟩ | ⟨_, hw⟩
  · rw [hw] at h
    cases h
    obtain ⟨h0, h1⟩ := (State.inRange_iff s a).mp ha
    exact ⟨rfl, h0, h1, Memory.read_write_self _ _ _ _⟩
  · rw [hw] at h
    cases h

/-- A completed store holds the byte at its address and advances by three; status is as before. -/
theorem storeAt_ok {a : Int} {v : Byte} (h : storeAt a v s = .ok t) :
    t.holds a v ∧ t.ip = s.ip + 3 ∧ t.status = s.status := by
  unfold storeAt at h
  split at h
  next => cases h
  next u hu =>
    cases h
    obtain ⟨rfl, hold⟩ := memWrite_ok hu
    exact ⟨hold, Int.add_assoc s.ip 1 2, rfl⟩

/-- D2 with a literal source is the store of the literal (43_move.md R152). -/
theorem exec_movAI_literal (a : Address) (i : Literal) (hsrc : s.cfg.movmiSrc = .literal) :
    exec (.movAI a i) s = settle s (storeAt (zext8 a) i s) := by
  simp only [exec, execMovAI, movmiSource, hsrc]

/-- D4 between registers that exist is the store of the second at the first (43_move.md R154). -/
theorem exec_movMR_ok (r q : RegId) (hr : r.toNat < 4) (hq : q.toNat < 4) :
    exec (.movMR r q) s = settle s (storeAt (zext8 s.x[r.toNat]) s.x[q.toNat] s) := by
  simp only [exec, execMovMR, reg_ok s r hr, reg_ok s q hq]

/-- A completed PUSH holds the register's value in the cell that was the next free slot (45_stack.md R170). -/
theorem exec_push_holds {r : RegId} (hr : r.toNat < 4) (h : exec (.push r) s = .next t) (ht : t.completed) :
    t.holds s.sp s.x[r.toNat] := by
  have hok := eq_ok_of_settle_completed h ht
  rw [reg_ok s r hr] at hok
  rcases hw : memWrite .stack s s.sp s.x[r.toNat] with e | u
  · simp [hw] at hok
  · simp only [hw, Except.ok.injEq] at hok
    subst hok
    exact (memWrite_ok hw).2

/-- A Running core whose cell at ip holds 00 halts there (46_halt.md R180). -/
theorem step_of_holds_zero (hr : s.status = .running) (h : s.holds s.ip 0x00) :
    step s = .next (s.setStatus .halted) := by
  have hfetch : fetchInstr s = .ok .halt := by
    simp only [fetchInstr, memRead_of_holds .fetch s s.ip 0x00 h, OpcodeMap.lookup_zero]
    rfl
  simp only [step, hr, hfetch]
  rfl

end

/-- Settles O57: after each completed store its cell holds the byte stored, whatever reads it next; 00 at the new ip is
HALT. -/
theorem storeIsSeenByNextFetch : Obligations.StoreIsSeenByNextFetch := by
  refine ⟨fun a i s t _ hsrc h ht => ?_, fun r q s t hr hq _ h ht => ?_, fun r s t hr _ h ht => ?_,
    fun a s t hrun hsrc ha h ht => ?_⟩
  · rw [exec_movAI_literal a i hsrc] at h
    exact memRead_of_holds _ _ _ _ (storeAt_ok (eq_ok_of_settle_completed h ht)).1
  · rw [exec_movMR_ok r q hr hq] at h
    exact memRead_of_holds _ _ _ _ (storeAt_ok (eq_ok_of_settle_completed h ht)).1
  · exact memRead_of_holds _ _ _ _ (exec_push_holds hr h ht)
  · rw [exec_movAI_literal a 0x00 hsrc] at h
    obtain ⟨hold, hip, hst⟩ := storeAt_ok (eq_ok_of_settle_completed h ht)
    rw [ha, ← hip] at hold
    exact step_of_holds_zero (hst.trans hrun) hold

end Sys2Proof.Machine

/-! ## Text of bytes and addresses (20_memory.md R51, 00_scope.md R8) -/

namespace Sys2Proof.Machine

/-- Hex digits have no prefix to strip: `x` and `X` are none. -/
theorem stripPrefix_of_hex {cs : List Char} (h : ∀ c ∈ cs, hexValue c ≠ none) : stripPrefix cs = cs := by
  unfold stripPrefix
  split
  next => exact absurd (by decide) (h 'x' (by simp))
  next => exact absurd (by decide) (h 'X' (by simp))
  next => rfl

theorem addressOfText_congr {cs ds : List Char} (h : stripPrefix cs = stripPrefix ds) :
    addressOfText cs = addressOfText ds := by
  simp only [addressOfText, h]

/-- Every digit the core writes is read as its nibble. -/
theorem hexValue_hexDigit (n : BitVec 4) : hexValue (hexDigit n) = some n.toNat := by
  revert n
  decide

/-- A byte is its two nibbles. -/
theorem nibbles_toNat (b : Byte) : 16 * (b.extractLsb' 4 4).toNat + (b.extractLsb' 0 4).toNat = b.toNat := by
  have hb := b.isLt
  simp only [BitVec.extractLsb'_toNat, Nat.shiftRight_eq_div_pow]
  omega

theorem byteText_hex (b : Byte) : ∀ c ∈ byteText b, hexValue c ≠ none := by
  simp [byteText, hexValue_hexDigit]

theorem byteOfText_byteText (b : Byte) : byteOfText (byteText b) = some b := by
  simp only [byteText, byteOfText, hexValue_hexDigit, nibbles_toNat, BitVec.ofNat_toNat, BitVec.setWidth_eq]

theorem addressOfText_byteText (b : Byte) : addressOfText (byteText b) = some b.toNat := by
  rw [addressOfText, stripPrefix_of_hex (byteText_hex b)]
  simp only [byteText, hexNumber, hexValue_hexDigit, Nat.mul_zero, Nat.zero_add, nibbles_toNat]

/-- Settles O22: the text behind the prefix is what is read, and digits without one are read whole; a byte's two digits are
its nibbles. -/
theorem addressTextNormalizes : Obligations.AddressTextNormalizes := by
  have prefixed : ∀ cs : List Char, (∀ c ∈ cs, hexValue c ≠ none) →
      addressOfText ('0' :: 'x' :: cs) = addressOfText cs ∧ addressOfText ('0' :: 'X' :: cs) = addressOfText cs :=
    fun cs h => ⟨addressOfText_congr (stripPrefix_of_hex h).symm, addressOfText_congr (stripPrefix_of_hex h).symm⟩
  exact ⟨prefixed, fun b => ⟨byteOfText_byteText b, addressOfText_byteText b,
    (prefixed _ (byteText_hex b)).1.trans (addressOfText_byteText b)⟩⟩

end Sys2Proof.Machine

/-! ## Decoding and encoding (30_encoding.md R70-R85) -/

namespace Sys2Proof

section
variable {m : OpcodeMap} {opc : Byte} {o : Op} {i : Instr} {tail bytes rest : List Byte}

/-- The operand bytes at the front are the ones taken, whatever follows them. -/
theorem Op.takeOperands_operands (i : Instr) (rest : List Byte) :
    i.op.takeOperands (i.operands ++ rest) = .ok (i, rest) := by
  cases i <;> rfl

/-- A listed opcode byte leaves the operands to be taken (30_encoding.md R75). -/
theorem decode_of_lookup (h : m.lookup opc = some o) : decode m (opc :: tail) = o.takeOperands tail := by
  simp only [decode, h]

/-- An unlisted opcode byte is rejected by name (30_encoding.md R75, R83). -/
theorem decode_of_lookup_none (h : m.lookup opc = none) : decode m (opc :: tail) = .error (.unknownOpcode opc) := by
  simp only [decode, h]

/-- What a decoding that succeeds has done: looked up an opcode byte and taken the operands from what follows it. -/
theorem decode_ok (h : decode m bytes = .ok (i, rest)) :
    ∃ opc tail o, bytes = opc :: tail ∧ m.lookup opc = some o ∧ o.takeOperands tail = .ok (i, rest) := by
  cases bytes with
  | nil => cases h
  | cons opc tail =>
    cases ho : m.lookup opc with
    | none =>
      rw [decode_of_lookup_none ho] at h
      cases h
    | some o => exact ⟨opc, tail, o, rfl, ho, decode_of_lookup ho ▸ h⟩

/-- The bytes a decoding read: an opcode byte of the instruction's operation, its operand bytes, and the rest. -/
theorem decode_cons_ok (h : decode m (opc :: tail) = .ok (i, rest)) :
    m.lookup opc = some i.op ∧ tail = i.operands ++ rest := by
  obtain ⟨_, _, o, hb, ho, ht⟩ := decode_ok h
  cases hb
  obtain ⟨rfl, htail⟩ := Op.takeOperands_ok o tail rest i ht
  exact ⟨ho, htail⟩

end

/-- Settles O1: a legal map finds the operation of its own byte, and the operand bytes follow it. -/
theorem decodeOfEncode : Obligations.DecodeOfEncode := by
  intro m hm i rest
  exact (decode_of_lookup (m.lookup_byteOf hm i.op)).trans (Op.takeOperands_operands i rest)

/-- Settles O2: the opcode byte read is the one the map gives the operation, under any map. -/
theorem encodeOfDecode : Obligations.EncodeOfDecode := by
  intro m bytes rest i h
  cases bytes with
  | nil => cases h
  | cons opc tail =>
    obtain ⟨hlook, rfl⟩ := decode_cons_ok h
    rw [encode, m.byteOf_of_lookup opc i.op hlook, List.cons_append]

/-- Settles O3: the lookup of the opcode byte answers one operation, and no operand byte is looked at. -/
theorem opcodeByteAloneDecides : Obligations.OpcodeByteAloneDecides := by
  refine ⟨fun m opc tail tail' rest rest' i i' h h' => ?_, fun m opc o operands ho hlen => ?_⟩
  · obtain ⟨hlook, rfl⟩ := decode_cons_ok h
    obtain ⟨hlook', _⟩ := decode_cons_ok h'
    have hop : i.op = i'.op := Option.some.inj (hlook.symm.trans hlook')
    exact ⟨hop, by rw [Instr.length, Instr.length, hop], by rw [List.length_append, Instr.operands_length]⟩
  · obtain ⟨i, hi⟩ := o.takeOperands_of_length operands hlen
    obtain ⟨hop, hbytes⟩ := Op.takeOperands_ok o operands [] i hi
    exact ⟨i, (decode_of_lookup ho).trans hi, hop, by rw [hbytes, List.append_nil]⟩

end Sys2Proof

/-! ## Opcode maps (30_encoding.md R80, R81, R83) -/

namespace Sys2Proof

theorem OpcodeMap.standard_wf : OpcodeMap.standard.wf = true := by decide

/-- No two operations of a legal map share a byte (30_encoding.md R81). -/
theorem OpcodeMap.byteOf_injective {m : OpcodeMap} (h : m.wf = true) : Function.Injective m.byteOf := fun o o' he =>
  Option.some.inj ((m.lookup_byteOf h o).symm.trans (he ▸ m.lookup_byteOf h o'))

/-- A byte of a legal map has its family's high nibble (30_encoding.md R81). -/
theorem OpcodeMap.byteOf_nibble {m : OpcodeMap} (h : m.wf = true) (o : Op) :
    (m.byteOf o).toNat / 16 = o.family.nibble.toNat := by
  have hn : (m.byteOf o).extractLsb' 4 4 = o.family.nibble := by
    simp only [OpcodeMap.wf, Bool.and_eq_true, List.all_eq_true, beq_iff_eq] at h
    exact h.1 o o.mem_all
  rw [← hn, BitVec.extractLsb'_toNat, Nat.shiftRight_eq_div_pow]
  have hb := (m.byteOf o).isLt
  omega

/-- Settles O4: the constraints of a legal map, and the operand counts of the format column operation by operation. -/
theorem opcodeMapsKeepConstraints : Obligations.OpcodeMapsKeepConstraints := by
  refine ⟨OpcodeMap.standard_wf, fun m => ⟨rfl, rfl, rfl, rfl⟩, fun m hm o o' he => OpcodeMap.byteOf_injective hm he,
    fun m hm o _ => ?_, fun o => ?_⟩
  · rw [OpcodeMap.byteOf_nibble hm o]
    cases o.family <;> rfl
  · cases o <;> rfl

/-- The bytes of the spec's table (30_encoding.md R80). -/
theorem OpcodeMap.standard_bytes : (Op.all.map fun o => (OpcodeMap.standard.byteOf o).toNat) =
    [0x00, 0xA0, 0xA1, 0xA2, 0xA3, 0xA4, 0xA5, 0xA6, 0xB0, 0xB1, 0xB2, 0xB6, 0xB7,
      0xC0, 0xC1, 0xC2, 0xC3, 0xC4, 0xC5, 0xC6, 0xD0, 0xD1, 0xD2, 0xD3, 0xD4, 0xDA, 0xDB, 0xDC, 0xE0, 0xE1] := rfl

/-- A byte is unlisted exactly when its number is not among those of the table. -/
theorem OpcodeMap.unlisted_iff (m : OpcodeMap) (opc : Byte) :
    (∀ o, m.byteOf o ≠ opc) ↔ opc.toNat ∉ Op.all.map fun o => (m.byteOf o).toNat := by
  simp [BitVec.toNat_inj, Op.mem_all]

/-- Settles O6: each word is its instruction's encoding under the spec's table, a legal map. -/
theorem defaultTableWords : Obligations.DefaultTableWords := by
  have hdec : ∀ i, decode OpcodeMap.standard (encode OpcodeMap.standard i ++ []) = .ok (i, []) :=
    fun i => decodeOfEncode _ OpcodeMap.standard_wf i []
  refine ⟨hdec .halt, hdec (.subRR 2 3), hdec (.divRI 3 0x0A), hdec (.jnz 0xFB), hdec (.movAI 0x80 0x55),
    hdec (.cmpRA 0 0x81), hdec (.pop 1), ?_⟩
  have hword : tableBytes 24 0x0102D4 = encode OpcodeMap.standard (.movMR 2 1) ++ [] := by decide
  simp only [decodeTableWord, hword, hdec]

end Sys2Proof

/-! ## Two's complement (30_encoding.md R73) -/

namespace Sys2Proof.Machine

/-- `sext_8` is the two's-complement value of the byte (30_encoding.md R72, R73). -/
theorem sext8_eq_toInt (b : Byte) : sext8 b = b.toInt := by
  have hb := b.isLt
  rw [sext8, twosComp, BitVec.toInt_eq_toNat_cond]
  split <;> split <;> omega

/-- Settles O7: the two branches of the definition; for a byte the bounds are those of an 8-bit signed value. -/
theorem twosComplement : Obligations.TwosComplement :=
  ⟨fun _ _ _ => ⟨fun h => if_pos h, fun h => if_neg (Nat.not_lt.mpr h)⟩,
    fun b => ⟨rfl, sext8_eq_toInt b, sext8_eq_toInt b ▸ BitVec.le_toInt b,
      sext8_eq_toInt b ▸ Int.le_of_lt_add_one BitVec.toInt_lt⟩,
    by decide, by decide, by decide⟩

end Sys2Proof.Machine

/-! ## The fetch and the step (30_encoding.md R74-R79) -/

namespace Sys2Proof.Machine

section
variable {s : State} {opc op1 : Byte} {o : Op} {i : Instr}

/-- A Running core executes what it fetched. -/
theorem step_of_fetchInstr_ok (hr : s.status = .running) (h : fetchInstr s = .ok i) : step s = exec i s := by
  simp only [step, hr, h]

/-- A Running core takes the fetch's fault. -/
theorem step_of_fetchInstr_error {e : FaultCause} (hr : s.status = .running) (h : fetchInstr s = .error e) :
    step s = .next { s with status := .faulted e } := by
  simp only [step, hr, h]
  rfl

theorem fetchInstr_of_unreadable (h : s.unreadable s.ip) :
    fetchInstr s = .error (.addressError .fetch s.ip s.ip) := by
  simp only [fetchInstr, memRead_of_unreadable .fetch s s.ip h]

theorem fetchInstr_of_lookup_none (h : s.holds s.ip opc) (hl : s.cfg.opcodes.lookup opc = none) :
    fetchInstr s = .error (.decodeError opc s.ip) := by
  simp only [fetchInstr, memRead_of_holds .fetch s s.ip opc h, hl]

theorem fetchInstr_of_lookup (h : s.holds s.ip opc) (hl : s.cfg.opcodes.lookup opc = some o) :
    fetchInstr s = fetchOperands s o := by
  simp only [fetchInstr, memRead_of_holds .fetch s s.ip opc h, hl]

/-- op1 is read whenever the operation has an operand (30_encoding.md R76). -/
theorem fetchOperands_of_unreadable_op1 (hc : 1 ≤ o.operandCount) (h : s.unreadable (s.ip + 1)) :
    fetchOperands s o = .error (.addressError .fetch (s.ip + 1) s.ip) := by
  have hread := memRead_of_unreadable .fetch s (s.ip + 1) h
  unfold fetchOperands
  split
  next h0 => omega
  next => simp only [hread]
  next => simp only [hread]

/-- op2 is read after op1 (30_encoding.md R76). -/
theorem fetchOperands_of_unreadable_op2 (hc : o.operandCount = 2) (h1 : s.holds (s.ip + 1) op1)
    (h2 : s.unreadable (s.ip + 2)) : fetchOperands s o = .error (.addressError .fetch (s.ip + 2) s.ip) := by
  simp only [fetchOperands, hc, memRead_of_holds .fetch s _ op1 h1,
    memRead_of_unreadable .fetch s _ h2]

/-- The fetch reads the operand bytes the decoder takes: those that stand after ip (30_encoding.md R76). -/
theorem fetchOperands_of_takeOperands {bytes rest : List Byte} (hb : s.holdsBytes (s.ip + 1) bytes)
    (h : o.takeOperands bytes = .ok (i, rest)) : fetchOperands s o = .ok i := by
  unfold Op.takeOperands at h
  split at h
  next hc =>
    cases h
    simp only [fetchOperands, hc]
  next hc =>
    cases h
    obtain ⟨h1, _⟩ := hb
    simp only [fetchOperands, hc, memRead_of_holds .fetch s _ _ h1]
  next hc =>
    cases h
    obtain ⟨h1, h2, _⟩ := hb
    rw [Int.add_assoc] at h2
    simp only [fetchOperands, hc, memRead_of_holds .fetch s _ _ h1, memRead_of_holds .fetch s (s.ip + 2) _ h2]
  next => cases h

end

/-- Settles O5: no operation has the byte, so its lookup fails in the fetch and in the decoder; the listed bytes of the
spec's table leave the eight ranges. -/
theorem illegalOpcodes : Obligations.IllegalOpcodes := by
  refine ⟨fun _ opc hr h hno => ?_, fun m opc _ hno => decode_of_lookup_none (m.lookup_none opc hno), fun opc => ?_⟩
  · exact step_of_fetchInstr_error hr (fetchInstr_of_lookup_none h (OpcodeMap.lookup_none _ opc hno))
  · have hb := opc.isLt
    rw [OpcodeMap.unlisted_iff, OpcodeMap.standard_bytes]
    simp only [List.mem_cons, List.not_mem_nil, or_false, not_or]
    omega

/-- Settles O8: the fetch looks up the byte at ip and reads the operand bytes as the decoder does. -/
theorem stepRunsDecodedInstruction : Obligations.StepRunsDecodedInstruction := by
  intro s bytes rest i hr hb h
  obtain ⟨opc, tail, o, rfl, ho, ht⟩ := decode_ok h
  obtain ⟨hopc, htail⟩ := hb
  exact step_of_fetchInstr_ok hr ((fetchInstr_of_lookup hopc ho).trans (fetchOperands_of_takeOperands htail ht))

/-- Settles O9: the step takes the fault of the first of the fetch's four stages that fails. -/
theorem fetchFaultsInOrder : Obligations.FetchFaultsInOrder := fun _ hr =>
  ⟨fun hu => step_of_fetchInstr_error hr (fetchInstr_of_unreadable hu),
    fun _ h hl => step_of_fetchInstr_error hr (fetchInstr_of_lookup_none h hl),
    fun _ _ h hl hc hu => step_of_fetchInstr_error hr
      ((fetchInstr_of_lookup h hl).trans (fetchOperands_of_unreadable_op1 hc hu)),
    fun _ _ _ h hl hc h1 hu => step_of_fetchInstr_error hr
      ((fetchInstr_of_lookup h hl).trans (fetchOperands_of_unreadable_op2 hc h1 hu))⟩

/-- An effect that is no jump, no halt and no fault advances past the operand bytes (30_encoding.md R78). -/
theorem Effect.ip_eq {i : Instr} {s t : State} (h : Effect i s t) (hj : i.op.family ≠ .C) (hh : i ≠ .halt)
    (ht : t.completed) : t.ip = s.ip + 1 + i.op.operandCount := by
  cases h with
  | fault e => exact absurd rfl (ht e)
  | halt hi => exact absurd hi hh
  | arith => rfl
  | jump _ hf => exact absurd hf hj
  | move _ _ hop => rcases hop with hop | hop | hop <;> rw [hop] <;> rfl
  | store _ _ hop => rcases hop with hop | hop <;> rw [hop] <;> rfl
  | compare _ _ hop => rcases hop with hop | hop | hop <;> rw [hop] <;> rfl
  | push _ hop => rw [hop]; rfl
  | pop _ _ hop => rw [hop]; rfl

/-- Settles O12: read off the effect of the instruction. -/
theorem advancePastOperands : Obligations.AdvancePastOperands := fun i s t hj hh h _ ht =>
  (exec_next_effect i s t h).ip_eq hj hh ht

end Sys2Proof.Machine

/-! ## The law of ARITH_FLAGS (40_alu_register.md R101) -/

namespace Sys2Proof.Machine

/-- Flags that have grown by N, V and Z alone are what setting N, V and Z from them answers. -/
theorem setNVZ_of_grow {F G : Vector Bool 8} (h : FlagsGrow F G) : setNVZ F G = G := by
  have hget : ∀ k : Fin 8, (setNVZ F G)[k] = G[k] := fun k => by
    obtain ⟨hset, hkeep⟩ := h k
    rw [setNVZ_get]
    cases hNVZ : (k == 4 || k == 5 || k == 6) with
    | true => simpa using hset
    | false =>
      simp only [Bool.or_eq_false_iff, beq_eq_false_iff_ne, and_assoc] at hNVZ
      obtain ⟨h4, h5, h6⟩ := hNVZ
      rw [Bool.false_and, Bool.or_false, hkeep h4 h5 h6]
  exact Vector.ext fun k hk => hget ⟨k, hk⟩

/-- Settles O26: the law is `FlagsGrow`, which both settings obey and which leaves nothing for the free value to add. -/
theorem arithFlagsLaw : Obligations.ArithFlagsLaw :=
  ⟨arithFlags_grow, arithFlags_none, fun _ _ hset hkeep => setNVZ_of_grow fun k => ⟨hset k, hkeep k⟩⟩

end Sys2Proof.Machine

/-! ## commit8 (40_alu_register.md R100) -/

namespace Sys2Proof.Machine

/-- Every integer in 0..255 is a byte's value. -/
theorem exists_zext8_eq {r : Int} (h0 : 0 ≤ r) (h1 : r ≤ 255) : ∃ v : Byte, zext8 v = r := by
  refine ⟨BitVec.ofNat 8 r.toNat, ?_⟩
  rw [zext8, BitVec.toNat_ofNat]
  omega

/-- Under wrap the result is committed as the byte whose value it is mod 256. -/
theorem commit8_of_wrap {s : State} {r : Int} {v : Byte} (hw : s.cfg.arithRange = .wrap) (hv : zext8 v = r % 256) :
    commit8 s r = .ok v := by
  rw [commit8_wrap s r hw, ← hv]
  simp [zext8]

/-- Settles O25: a result in range, or its residue, is some byte's value, and that byte is the one answered. -/
theorem commitEightBits : Obligations.CommitEightBits := by
  refine fun s r => ⟨fun h0 h1 => ?_, fun hw => ?_, commit8_overflow s r, commit8_underflow s r⟩
  · obtain ⟨v, rfl⟩ := exists_zext8_eq h0 h1
    exact ⟨v, rfl, commit8_byte s v⟩
  · obtain ⟨v, hv⟩ := exists_zext8_eq (r := r % 256) (by omega) (by omega)
    exact ⟨v, hv, commit8_of_wrap hw hv⟩

end Sys2Proof.Machine

/-! ## What the shared arithmetic commits (40_alu_register.md R100-R103)

About any instruction that is, once its register operands are read, an operation of the shared arithmetic. -/

namespace Sys2Proof.Machine

section
variable {i : Instr} {s : State} {op : ArithOp} {d : Fin 4} {a b : Int} {n : Nat}

/-- The instruction writes the byte commit8 answers. -/
theorem commitsArith_of_commit8 (h : exec i s = settle s (arith op d a b n s)) (hd : divideCheck s op b = .ok ())
    {v : Byte} (hv : commit8 s (arithResult op a b) = .ok v) :
    CommitsArith i s d v op a b (arithResult op a b) (1 + n) := by
  rw [CommitsArith, h, arith_ok op d a b n s v hd hv, settle_ok, ← Int.add_assoc]
  rfl

/-- The instruction takes the range fault commit8 answers. -/
theorem faults_of_commit8 (h : exec i s = settle s (arith op d a b n s)) (hd : divideCheck s op b = .ok ())
    {e : FaultCause} (he : commit8 s (arithResult op a b) = .error e) : Faults i s e := by
  simp only [Faults, h, arith, hd, he, settle_error]
  rfl

/-- The instruction commits the exact result, whatever its range (40_alu_register.md R100). -/
theorem commitsResult_of_arith (h : exec i s = settle s (arith op d a b n s)) (hd : divideCheck s op b = .ok ()) :
    CommitsResult i s d op a b (arithResult op a b) (1 + n) :=
  ⟨fun v hv => commitsArith_of_commit8 h hd (hv ▸ commit8_byte s v),
    fun _ hw hv => commitsArith_of_commit8 h hd (commit8_of_wrap hw hv),
    fun hf hr => faults_of_commit8 h hd (commit8_overflow s _ hf hr),
    fun hf hr => faults_of_commit8 h hd (commit8_underflow s _ hf hr)⟩

end

theorem zext8_eq_zero_iff (y : Byte) : zext8 y = 0 ↔ y = 0 := by
  rw [zext8, Int.natCast_eq_zero, BitVec.toNat_eq]
  rfl

theorem divideCheck_of_ne_zero {s : State} {op : ArithOp} {b : Int} (hb : b ≠ 0) : divideCheck s op b = .ok () := by
  cases op <;> simp [divideCheck, hb]

theorem divideCheck_zero {s : State} {op : ArithOp} (hop : op = .div ∨ op = .mod) :
    divideCheck s op 0 = .error (.divideByZero s.ip) := by
  rcases hop with rfl | rfl <;> rfl

/-- The unsigned quotient is a byte (40_alu_register.md R102). -/
theorem zext8_udiv (x y : Byte) : zext8 (x / y) = arithResult .div (zext8 x) (zext8 y) := by
  rw [zext8, BitVec.toNat_udiv]
  rfl

/-- The unsigned remainder is a byte (40_alu_register.md R102). -/
theorem zext8_umod (x y : Byte) : zext8 (x % y) = arithResult .mod (zext8 x) (zext8 y) := by
  rw [zext8, BitVec.toNat_umod]
  rfl

section
variable {i : Instr} {s : State} {op : ArithOp} {d : Fin 4} {n : Nat} {x y v : Byte}

/-- DIV and MOD by a byte: DivideByZero, or the result is a byte and is written whatever ARITH_RANGE is
(40_alu_register.md R102). -/
theorem divide_of_arith (hop : op = .div ∨ op = .mod)
    (h : exec i s = settle s (arith op d (zext8 x) (zext8 y) n s))
    (hv : zext8 v = arithResult op (zext8 x) (zext8 y)) :
    (y = 0 → Faults i s (.divideByZero s.ip)) ∧
    (y ≠ 0 → CommitsArith i s d v op (zext8 x) (zext8 y) (arithResult op (zext8 x) (zext8 y)) (1 + n)) := by
  refine ⟨fun hy => ?_, fun hy => ?_⟩
  · rw [(zext8_eq_zero_iff y).mpr hy] at h
    simp only [Faults, h, arith, divideCheck_zero hop, settle_error]
    rfl
  · exact commitsArith_of_commit8 h (divideCheck_of_ne_zero ((zext8_eq_zero_iff y).not.mpr hy)) (hv ▸ commit8_byte s v)

end

end Sys2Proof.Machine

/-! ## Register arithmetic, the A* family (40_alu_register.md R104-R110) -/

namespace Sys2Proof.Machine

section
variable {i : Instr} {s : State} {op : ArithOp} {r q : RegId}

/-- The two-operand form of an operation without a divide check commits its result (40_alu_register.md R103). -/
theorem arithRegReg_commits (h : exec i s = arithRegReg op r q s) (hd : ∀ b, divideCheck s op b = .ok ())
    (hr : r.toNat < 4) (hq : q.toNat < 4) :
    CommitsResult i s ⟨r.toNat, hr⟩ op (zext8 s.x[r.toNat]) (zext8 s.x[q.toNat])
      (arithResult op (zext8 s.x[r.toNat]) (zext8 s.x[q.toNat])) 3 :=
  commitsResult_of_arith (h.trans (arithRegReg_ok op r q s hr hq)) (hd _)

/-- The two-operand form of DIV and MOD. -/
theorem arithRegReg_divides (h : exec i s = arithRegReg op r q s) (hop : op = .div ∨ op = .mod)
    (hr : r.toNat < 4) (hq : q.toNat < 4) {v : Byte}
    (hv : zext8 v = arithResult op (zext8 s.x[r.toNat]) (zext8 s.x[q.toNat])) :
    (s.x[q.toNat] = 0 → Faults i s (.divideByZero s.ip)) ∧
    (s.x[q.toNat] ≠ 0 → CommitsArith i s ⟨r.toNat, hr⟩ v op (zext8 s.x[r.toNat]) (zext8 s.x[q.toNat])
      (arithResult op (zext8 s.x[r.toNat]) (zext8 s.x[q.toNat])) 3) :=
  divide_of_arith hop (h.trans (arithRegReg_ok op r q s hr hq)) hv

/-- The one-operand form commits its result; its second operand is 1, so it is never divide-checked
(40_alu_register.md R101). -/
theorem arithReg_commits (h : exec i s = arithReg op r s) (hr : r.toNat < 4) :
    CommitsResult i s ⟨r.toNat, hr⟩ op (zext8 s.x[r.toNat]) 1 (arithResult op (zext8 s.x[r.toNat]) 1) 2 :=
  commitsResult_of_arith (h.trans (arithReg_ok op r s hr)) (divideCheck_of_ne_zero (by decide))

end

/-- Settles O28: each is the two-operand form of an operation that is never divide-checked. -/
theorem registerAddSubMul : Obligations.RegisterAddSubMul := fun _ _ _ =>
  ⟨⟨rfl, arithRegReg_checks rfl, arithRegReg_commits rfl fun _ => rfl⟩,
    ⟨rfl, arithRegReg_checks rfl, arithRegReg_commits rfl fun _ => rfl⟩,
    ⟨rfl, arithRegReg_checks rfl, arithRegReg_commits rfl fun _ => rfl⟩⟩

/-- Settles O29: each is the two-operand form of an operation that is divide-checked, and its result is a byte. -/
theorem registerDivMod : Obligations.RegisterDivMod := fun _ _ _ =>
  ⟨⟨rfl, arithRegReg_checks rfl, fun hr hq => arithRegReg_divides rfl (.inl rfl) hr hq (zext8_udiv _ _)⟩,
    ⟨rfl, arithRegReg_checks rfl, fun hr hq => arithRegReg_divides rfl (.inr rfl) hr hq (zext8_umod _ _)⟩⟩

/-- Settles O30: each is the one-operand form, whose second operand is 1. -/
theorem incrementDecrement : Obligations.IncrementDecrement := fun _ _ =>
  ⟨⟨rfl, arithReg_checks rfl, arithReg_commits rfl⟩, ⟨rfl, arithReg_checks rfl, arithReg_commits rfl⟩⟩

end Sys2Proof.Machine

/-! ## Immediate arithmetic, the B* family (41_alu_immediate.md R120-R125) -/

namespace Sys2Proof.Machine

section
variable {i : Instr} {s : State} {op : ArithOp} {r : RegId} {k : Literal}

/-- The literal form of an operation without a divide check commits its result, whatever the literal
(41_alu_immediate.md R125). -/
theorem arithRegImm_commits (h : exec i s = arithRegImm op r k s) (hd : ∀ b, divideCheck s op b = .ok ())
    (hr : r.toNat < 4) :
    CommitsResult i s ⟨r.toNat, hr⟩ op (zext8 s.x[r.toNat]) (zext8 k)
      (arithResult op (zext8 s.x[r.toNat]) (zext8 k)) 3 :=
  commitsResult_of_arith (h.trans (arithRegImm_ok op r k s hr)) (hd _)

/-- The literal form of DIV and MOD; the divide check comes after the register check (41_alu_immediate.md R125). -/
theorem arithRegImm_divides (h : exec i s = arithRegImm op r k s) (hop : op = .div ∨ op = .mod)
    (hr : r.toNat < 4) {v : Byte} (hv : zext8 v = arithResult op (zext8 s.x[r.toNat]) (zext8 k)) :
    (k = 0 → Faults i s (.divideByZero s.ip)) ∧
    (k ≠ 0 → CommitsArith i s ⟨r.toNat, hr⟩ v op (zext8 s.x[r.toNat]) (zext8 k)
      (arithResult op (zext8 s.x[r.toNat]) (zext8 k)) 3) :=
  divide_of_arith hop (h.trans (arithRegImm_ok op r k s hr)) hv

end

/-- Settles O31: each is the literal form of an operation that is never divide-checked. -/
theorem immediateAddSubMul : Obligations.ImmediateAddSubMul := fun _ _ _ =>
  ⟨⟨rfl, arithRegImm_checks rfl, arithRegImm_commits rfl fun _ => rfl⟩,
    ⟨rfl, arithRegImm_checks rfl, arithRegImm_commits rfl fun _ => rfl⟩,
    ⟨rfl, arithRegImm_checks rfl, arithRegImm_commits rfl fun _ => rfl⟩⟩

/-- Settles O32: each is the literal form of an operation that is divide-checked, and its result is a byte. -/
theorem immediateDivMod : Obligations.ImmediateDivMod := fun _ _ _ =>
  ⟨⟨rfl, arithRegImm_checks rfl, fun hr => arithRegImm_divides rfl (.inl rfl) hr (zext8_udiv _ _)⟩,
    ⟨rfl, arithRegImm_checks rfl, fun hr => arithRegImm_divides rfl (.inr rfl) hr (zext8_umod _ _)⟩⟩

end Sys2Proof.Machine

/-! ## Control transfer, the C* family (42_control.md R130-R139) -/

namespace Sys2Proof.Machine

section
variable {s : State} {i : Instr} {d : Offset}

theorem jmpTarget_skip (ip k : Int) : jmpTarget .skip ip k = ip + k + 1 := Int.add_zero _

theorem jmpTarget_flat (ip k : Int) : jmpTarget .flat ip k = ip + k + 3 := Int.add_assoc _ 1 2

theorem jccTarget_skip (ip k : Int) : jccTarget .skip ip k = ip + k := Int.add_zero _

theorem jccTarget_flat (ip k : Int) : jccTarget .flat ip k = ip + k + 2 := rfl

/-- A jump changes ip alone; where it leads depends on the policy (42_control.md R133). -/
theorem exec_jmp (d : Offset) (s : State) :
    exec (.jmp d) s = .next { s with ip := jmpTarget s.cfg.jumpPolicy s.ip (sext8 d) } := rfl

/-- The fetch at an address outside the memory faults, however ip came there (42_control.md R132). -/
theorem badTargetFaultsNext (i : Instr) (s : State) : BadTargetFaultsNext i s := fun _ _ hr hout =>
  step_of_fetchInstr_error hr (fetchInstr_of_unreadable (hout.imp_right .inl))

/-- A conditional jump jumps when its condition holds and else advances past its two bytes (42_control.md R131). -/
theorem jumpIf_jumpsWhen {cond : Bool} {c : Prop} (h : exec i s = jumpIf cond d s) (hc : cond = true ↔ c) :
    JumpsWhen i s d c := by
  refine ⟨fun hc' hp => ?_, fun hc' hp => ?_, fun hc' => ?_, badTargetFaultsNext i s⟩
  · rw [h, jumpIf, if_pos (hc.mpr hc'), hp, jccTarget_skip]
    rfl
  · rw [h, jumpIf, if_pos (hc.mpr hc'), hp, jccTarget_flat]
    rfl
  · rw [h, jumpIf, if_neg (hc.not.mpr hc')]
    rfl

end

/-- Settles O33: the target of JMP under each policy; the next step fetches there. -/
theorem jumpUnconditional : Obligations.JumpUnconditional := fun d s =>
  ⟨rfl, fun hp => by rw [exec_jmp, hp, jmpTarget_skip], fun hp => by rw [exec_jmp, hp, jmpTarget_flat],
    badTargetFaultsNext _ s⟩

/-- Settles O34: each is the conditional jump on one entry of the flags, or on its negation. -/
theorem jumpsConditional : Obligations.JumpsConditional := fun _ _ =>
  have hnot (b : Bool) : (!b) = true ↔ b = false := Bool.not_eq_true' b ▸ Iff.rfl
  ⟨⟨rfl, jumpIf_jumpsWhen rfl Iff.rfl⟩, ⟨rfl, jumpIf_jumpsWhen rfl (hnot _)⟩,
    ⟨rfl, jumpIf_jumpsWhen rfl Iff.rfl⟩, ⟨rfl, jumpIf_jumpsWhen rfl (hnot _)⟩,
    ⟨rfl, jumpIf_jumpsWhen rfl Iff.rfl⟩, ⟨rfl, jumpIf_jumpsWhen rfl (hnot _)⟩⟩

end Sys2Proof.Machine

/-! ## A jump to itself (42_control.md R133, 60_exceptions.md R215) -/

namespace Sys2Proof.Machine

section
variable {s : State}

/-- Under a legal map a Running core with an instruction's encoding at ip executes it. -/
theorem step_of_holdsBytes_encode {i : Instr} (hr : s.status = .running) (hm : s.cfg.opcodes.wf = true)
    (h : s.holdsBytes s.ip (encode s.cfg.opcodes i)) : step s = exec i s := by
  rw [← List.append_nil (encode _ i)] at h
  exact stepRunsDecodedInstruction s _ [] i hr h (decodeOfEncode _ hm i [])

/-- A jump of offset FF, which is -1, leads back to its own opcode byte under skip (42_control.md R131). -/
theorem exec_jmp_self (hp : s.cfg.jumpPolicy = .skip) : exec (.jmp 0xFF) s = .next s := by
  have htarget : s.ip + sext8 0xFF + 1 = s.ip := Int.neg_add_cancel_right s.ip 1
  rw [exec_jmp, hp, jmpTarget_skip, htarget]

/-- A Running state that steps to itself is where the run stands after any number of steps. -/
theorem continueRun_of_step_self (hr : s.status = .running) (hs : step s = .next s) (n : Nat) :
    State.continueRun n s = .unfinished s := by
  induction n with
  | zero => exact continueRun_zero s hr
  | succ n ih => rw [continueRun_succ n s s hr hs, ih]

/-- Without a STEP_LIMIT an endless run comes to no other outcome (70_reset_and_hazards.md R234). -/
theorem eq_endless_of_continuesTo (hend : State.continuesTo none s .endless) {o : RunOutcome}
    (ho : State.continuesTo none s o) : o = .endless := by
  cases o with
  | endless => rfl
  | cutShort => exact ho.elim
  | halted t =>
    obtain ⟨n, hn⟩ := ho
    obtain ⟨u, hu, _⟩ := hend n
    cases hn.symm.trans hu
  | faulted e t =>
    obtain ⟨n, hn⟩ := ho
    obtain ⟨u, hu, _⟩ := hend n
    cases hn.symm.trans hu

end

/-- Settles O59: the step executes the jump, which leads to the same state, so every longer run stands there too. -/
theorem jumpToItselfNeverEnds : Obligations.JumpToItselfNeverEnds := by
  intro s hr hm hp hb
  have hstep : step s = .next s := (step_of_holdsBytes_encode (i := .jmp 0xFF) hr hm hb).trans (exec_jmp_self hp)
  have hrun : ∀ n, State.continueRun n s = .unfinished s := continueRun_of_step_self hr hstep
  have hend : State.continuesTo defaultStepLimit s .endless := fun n => ⟨s, hrun n, hr⟩
  exact ⟨hstep, hrun, hend, fun _ => eq_endless_of_continuesTo hend⟩

end Sys2Proof.Machine

/-! ## Frames: moves (43_move.md R155)

The components of an effect that the rows of 10_state.md R23 leave alone, and the one cell a store writes. -/

namespace Sys2Proof.Machine

section
variable {i : Instr} {s t : State}

/-- An instruction that writes no register leaves all four (10_state.md R23). -/
theorem Effect.x_eq_of_writesReg_none (h : Effect i s t) (hw : writesReg i = none) : t.x = s.x :=
  Vector.ext fun k hk => h.x_eq (k := ⟨k, hk⟩) fun r hr => by rw [hw] at hr; cases hr

/-- Only the stack instructions move sp (10_state.md R34). -/
theorem Effect.sp_eq (h : Effect i s t) (hu : usesStack i = false) : t.sp = s.sp := by
  obtain ⟨hsp, _⟩ | ⟨hop, _⟩ | ⟨hop, _⟩ := h.sp_cases
  · exact hsp
  · simp [usesStack, hop, Op.family] at hu
  · simp [usesStack, hop, Op.family] at hu

/-- Only D2, D4 and PUSH write memory (10_state.md R23). -/
theorem Effect.mem_eq (h : Effect i s t) (hi : i.op ≠ .movAI ∧ i.op ≠ .movMR ∧ i.op ≠ .push) : t.mem = s.mem := by
  obtain ⟨hAI, hMR, hpush⟩ := hi
  cases h with
  | store _ _ hop => exact (hop.elim hAI hMR).elim
  | push _ hop => exact absurd hop hpush
  | _ => rfl

/-- An instruction that writes no memory leaves what each cell holds. -/
theorem Effect.cell_eq (h : Effect i s t) (hi : i.op ≠ .movAI ∧ i.op ≠ .movMR ∧ i.op ≠ .push) (a : Nat) :
    t.cell a = s.cell a := by
  rw [State.cell, h.mem_eq hi, h.cfg_eq, State.cell]

/-- Every instruction but HALT leaves status or takes a fault. -/
theorem Effect.status_eq_or_faulted (h : Effect i s t) (hi : i ≠ .halt) :
    t.status = s.status ∨ ∃ e, t.status = .faulted e := by
  cases h with
  | fault e => exact .inr ⟨e, rfl⟩
  | halt hop => exact absurd hop hi
  | _ => exact .inl rfl

/-- A settled store leaves every cell but the one at its address (20_memory.md R53). -/
theorem cell_eq_of_settle_storeAt {a : Int} {v : Byte} (h : settle s (storeAt a v s) = .next t) {b : Nat}
    (hb : (b : Int) ≠ a) : t.cell b = s.cell b := by
  rw [storeAt] at h
  obtain ⟨ha, hw⟩ | ⟨_, hw⟩ := memWrite_cases .data s a v <;> rw [hw] at h <;> cases h
  · obtain ⟨h0, _⟩ := (State.inRange_iff s a).mp ha
    exact Memory.read_write_other _ _ _ _ _ (by omega)
  · rfl

/-- D2 once its source is read is the store of that byte (43_move.md R152). -/
theorem exec_movAI_of_source {a : Address} {k : Literal} {v : Byte} (hv : movmiSource s k = .ok v) :
    exec (.movAI a k) s = settle s (storeAt (zext8 a) v s) := by
  simp only [exec, execMovAI, hv]

theorem exec_movAI_cell_eq {a : Address} {k : Literal} (h : exec (.movAI a k) s = .next t) {b : Nat}
    (hb : (b : Int) ≠ zext8 a) : t.cell b = s.cell b := by
  cases hv : movmiSource s k with
  | error e =>
    simp only [exec, execMovAI, hv, settle_error] at h
    cases h
    rfl
  | ok v =>
    rw [exec_movAI_of_source hv] at h
    exact cell_eq_of_settle_storeAt h hb

theorem exec_movMR_cell_eq {r q : RegId} (hr : r.toNat < 4) (h : exec (.movMR r q) s = .next t) {b : Nat}
    (hb : (b : Int) ≠ zext8 s.x[r.toNat]) : t.cell b = s.cell b := by
  by_cases hq : q.toNat < 4
  · rw [exec_movMR_ok r q hr hq] at h
    exact cell_eq_of_settle_storeAt h hb
  · rw [(movMR_checks r q s).2 hr (by omega)] at h
    cases h
    rfl

/-- D4 with a bad first id takes its register fault, so it leaves every cell. -/
theorem exec_movMR_badFirst_cell_eq {r q : RegId} (hr : 4 ≤ r.toNat) (h : exec (.movMR r q) s = .next t) (b : Nat) :
    t.cell b = s.cell b := by
  rw [(movMR_checks r q s).1 hr] at h
  cases h
  rfl

end

/-- Settles O45: D0, D1 and D3 write the register of their row and no memory, flag or sp. -/
theorem frameOfMovesToRegister : Obligations.FrameOfMovesToRegister := by
  intro r q s t i hmem hexec
  have hi : writesReg i = some r ∧ writesFlags i = false ∧ usesStack i = false ∧ i ≠ .halt ∧
      i.op ≠ .movAI ∧ i.op ≠ .movMR ∧ i.op ≠ .push := by
    simp only [List.mem_cons, List.not_mem_nil, or_false] at hmem
    rcases hmem with rfl | rfl | rfl <;> exact ⟨rfl, rfl, rfl, nofun, nofun, nofun, nofun⟩
  obtain ⟨hw, hF, hsp, hhalt, hstore⟩ := hi
  have hE := exec_next_effect i s t hexec
  refine ⟨fun k hk => hE.x_eq fun r' hr' => ?_, hE.F_eq hF, hE.sp_eq hsp, hE.cell_eq hstore, hE.cfg_eq,
    hE.status_eq_or_faulted hhalt⟩
  rw [hw] at hr'
  cases hr'
  exact hk.symm

/-- Settles O46: the rows of D2 and D4 write no register, flag or sp; the cells by the address each stores to. -/
theorem frameOfStores : Obligations.FrameOfStores := by
  refine fun s t => ⟨fun a k h => ?_, fun r q h => ?_⟩ <;> have hE := exec_next_effect _ s t h
  · exact ⟨fun _ => exec_movAI_cell_eq h, hE.x_eq_of_writesReg_none rfl, hE.F_eq rfl, hE.sp_eq rfl, hE.cfg_eq,
      hE.status_eq_or_faulted nofun⟩
  · exact ⟨fun hr _ => exec_movMR_cell_eq hr h, fun hr => exec_movMR_badFirst_cell_eq hr h,
      hE.x_eq_of_writesReg_none rfl, hE.F_eq rfl, hE.sp_eq rfl, hE.cfg_eq, hE.status_eq_or_faulted nofun⟩

end Sys2Proof.Machine

/-! ## Data movement, the D* family (43_move.md R150-R154)

About any instruction that is, once its register operands are read, a load from one address or a store at one. -/

namespace Sys2Proof.Machine

section
variable {i : Instr} {s : State}

theorem zext8_nonneg (b : Byte) : 0 ≤ zext8 b := Int.natCast_nonneg _

/-- Every move is three bytes long (43_move.md R155). -/
theorem State.advance_two (s : State) : s.advance 2 = s.setIp (s.ip + 3) :=
  congrArg s.setIp (Int.add_assoc s.ip 1 2)

/-- A load writes the byte the cell holds, or takes the cell's data fault (43_move.md R151, R153). -/
theorem load_of_loadTo {r : RegId} {a : Int} (h : exec i s = loadTo r (.ok a) s) (hr : r.toNat < 4) :
    (∀ v, s.holds a v → exec i s = .next { s with x := s.x.set r.toNat v hr, ip := s.ip + 3 }) ∧
    (s.unreadable a → Faults i s (.addressError .data a s.ip)) := by
  refine ⟨fun v hv => ?_, fun hu => ?_⟩
  · simp only [h, loadTo, regIndex_ok s r hr, memRead_of_holds .data s a v hv, settle_ok, State.advance_two]
    rfl
  · simp only [Faults, h, loadTo, regIndex_ok s r hr, memRead_of_unreadable .data s a hu, settle_error]
    rfl

/-- A store writes the cell at its zero-extended address, or takes the data fault above memory (43_move.md R152, R154). -/
theorem store_of_storeAt {a v : Byte} (h : exec i s = settle s (storeAt (zext8 a) v s)) :
    (zext8 a < s.cfg.memSize → exec i s =
      .next { s with mem := Memory.write s.cfg.imageFill s.mem a.toNat v, ip := s.ip + 3 }) ∧
    ((s.cfg.memSize : Int) ≤ zext8 a → Faults i s (.addressError .data (zext8 a) s.ip)) := by
  refine ⟨fun ha => ?_, fun ha => ?_⟩
  · simp only [h, storeAt, memWrite_of_inRange .data s (zext8 a) v (zext8_nonneg a) ha, settle_ok, State.advance_two]
    rfl
  · simp only [Faults, h, storeAt, memWrite_of_outside .data s (zext8 a) v (.inr ha), settle_error]
    rfl

/-- D0 with a good id stores the literal unchanged (43_move.md R150). -/
theorem exec_movRI_ok (r : RegId) (k : Literal) (hr : r.toNat < 4) :
    exec (.movRI r k) s = .next { s with x := s.x.set r.toNat k hr, ip := s.ip + 3 } := by
  simp only [exec, execMovRI, regIndex_ok s r hr, settle_ok, State.advance_two]
  rfl

/-- D3 with a good second id is the load from the address that register held before (43_move.md R153). -/
theorem exec_movRM_ok (r q : RegId) (hq : q.toNat < 4) :
    exec (.movRM r q) s = loadTo r (.ok (zext8 s.x[q.toNat])) s := by
  simp only [exec, execMovRM, reg_ok s q hq]

/-- D2 under MOVMI_SRC = register reads the register its second operand names (43_move.md R152). -/
theorem movmiSource_register {k : Literal} (hsrc : s.cfg.movmiSrc = .register) (hk : k.toNat < 4) :
    movmiSource s k = .ok s.x[k.toNat] := by
  simp only [movmiSource, hsrc, reg_ok s k hk]

end

/-- Settles O35: the register check, and else the literal is written. -/
theorem moveImmediate : Obligations.MoveImmediate := fun r k s => ⟨rfl, movRI_checks r k s, exec_movRI_ok r k⟩

/-- Settles O36: the load from the zero-extended address byte. -/
theorem moveFromMemory : Obligations.MoveFromMemory := fun _ a _ =>
  ⟨rfl, loadTo_checks (addr := .ok (zext8 a)) rfl, load_of_loadTo rfl⟩

/-- Settles O37: the store of the literal, or of the register it names after the register check. -/
theorem moveImmediateToMemory : Obligations.MoveImmediateToMemory := fun a k s =>
  ⟨rfl, fun hsrc => store_of_storeAt (exec_movAI_literal a k hsrc),
    fun hsrc => ⟨movAI_checks a k s hsrc, fun hk => store_of_storeAt (exec_movAI_of_source (movmiSource_register hsrc hk))⟩⟩

/-- Settles O38: the load from the second register's old value, whichever register is written. -/
theorem moveIndirectToRegister : Obligations.MoveIndirectToRegister := fun r q s =>
  ⟨rfl, movRM_checks r q s, fun hr hq => load_of_loadTo (exec_movRM_ok r q hq) hr⟩

/-- Settles O39: the store of the second register at the first one's value. -/
theorem moveRegisterToIndirect : Obligations.MoveRegisterToIndirect := fun r q s =>
  ⟨rfl, movMR_checks r q s, fun hr hq => store_of_storeAt (exec_movMR_ok r q hr hq)⟩

end Sys2Proof.Machine

/-! ## The three-way compare on its operands' values (44_compare.md R160) -/

namespace Sys2Proof.Machine

section
variable {a b : Int}

theorem cmpFlags_of_lt (h : a < b) (F : Vector Bool 8) : cmpFlags a b F = F.set 4 true := if_pos (Int.sub_neg_of_lt h)

theorem cmpFlags_self (a : Int) (F : Vector Bool 8) : cmpFlags a a F = F.set 6 true := by
  rw [cmpFlags, Int.sub_self, if_neg (Int.lt_irrefl 0), if_pos rfl]

theorem cmpFlags_of_gt (h : b < a) (F : Vector Bool 8) : cmpFlags a b F = F := by
  have hpos : 0 < a - b := Int.sub_pos_of_lt h
  rw [cmpFlags, if_neg (Int.not_lt.mpr hpos.le), if_neg hpos.ne']

/-- A compare writes no entry but N and Z. -/
theorem cmpFlags_get_of_ne {k : Fin 8} (h4 : k ≠ 4) (h6 : k ≠ 6) (F : Vector Bool 8) : (cmpFlags a b F)[k] = F[k] := by
  rw [cmpFlags_get]
  simp [beq_eq_false_iff_ne.mpr h4, beq_eq_false_iff_ne.mpr h6]

end

/-- The order of zero-extended bytes is the unsigned one (30_encoding.md R72). -/
theorem zext8_lt_zext8_iff {a b : Byte} : zext8 a < zext8 b ↔ a.toNat < b.toNat := Int.ofNat_lt

/-- Settles O27: the sign of the difference of the zero-extended bytes decides. -/
theorem compareSetsFlags : Obligations.CompareSetsFlags := fun _ _ F =>
  ⟨fun h => cmpFlags_of_lt (zext8_lt_zext8_iff.mpr h) F, fun h => h ▸ cmpFlags_self _ F,
    fun h => cmpFlags_of_gt (zext8_lt_zext8_iff.mpr h) F⟩

end Sys2Proof.Machine

/-! ## Comparison, DA-DC (44_compare.md R161-R164)

About any instruction that compares a register with a right operand, by what that operand's own check answers. -/

namespace Sys2Proof.Machine

section
variable {i : Instr} {s : State} {r : RegId} {right : Except FaultCause Byte}

/-- A compare whose two operands were read sets its flags and is three bytes long (44_compare.md R160, R164). -/
theorem compares_of_compareWith {b : Byte} (h : exec i s = compareWith r right s) (hr : r.toNat < 4)
    (hright : right = .ok b) : Compares i s s.x[r.toNat] b := by
  have hexec : exec i s = .next { s with F := cmpFlags (zext8 s.x[r.toNat]) (zext8 b) s.F, ip := s.ip + 3 } := by
    simp only [h, compareWith, reg_ok s r hr, hright, settle_ok, compare, State.advance_two]
    rfl
  obtain ⟨hlt, heq, hgt⟩ := compareSetsFlags s.x[r.toNat] b s.F
  exact ⟨fun hab => by rw [hexec, hlt hab], fun hab => by rw [hexec, heq hab], fun hab => by rw [hexec, hgt hab]⟩

/-- With a good left operand the right one's fault is the compare's (44_compare.md R164). -/
theorem faults_of_compareWith {e : FaultCause} (h : exec i s = compareWith r right s) (hr : r.toNat < 4)
    (hright : right = .error e) : Faults i s e := by
  simp only [Faults, h, compareWith, reg_ok s r hr, hright, settle_error]
  rfl

end

/-- Settles O40: the register checks, and else the compare with the right operand read from its register, its literal or its
cell. -/
theorem compareInstructions : Obligations.CompareInstructions := fun r q b s =>
  ⟨⟨rfl, cmpRR_checks r q s, fun hr hq => compares_of_compareWith rfl hr (reg_ok s q hq)⟩,
    ⟨rfl, compareWith_checks (right := .ok b) rfl, fun hr => compares_of_compareWith rfl hr rfl⟩,
    ⟨rfl, compareWith_checks (right := memRead .data s (zext8 b)) rfl, fun hr =>
      ⟨fun v hv => compares_of_compareWith rfl hr (memRead_of_holds .data s _ v hv),
        fun hu => faults_of_compareWith rfl hr (memRead_of_unreadable .data s _ hu)⟩⟩⟩

end Sys2Proof.Machine

/-! ## Frames: compares, jumps, HALT -/

namespace Sys2Proof.Machine

/-- All a compare can do: the fault of an operand, or the compare of two bytes (44_compare.md R164). -/
theorem compareWith_cases (r : RegId) (right : Except FaultCause Byte) (s : State) :
    (∃ e, compareWith r right s = .next (s.setStatus (.faulted e))) ∨
    ∃ a b, compareWith r right s = .next (compare a b s) := by
  unfold compareWith
  cases reg s r with
  | error e => exact .inl ⟨e, rfl⟩
  | ok a =>
    cases right with
    | error e => exact .inl ⟨e, rfl⟩
    | ok b => exact .inr ⟨a, b, rfl⟩

/-- A jump, taken or not, sets ip and does nothing else (42_control.md R131, R132). -/
theorem exec_jump_setIp {i : Instr} (hi : i.op.family = .C) (s : State) : ∃ a, exec i s = .next (s.setIp a) := by
  cases i with
  | jmp | jz | jnz | js | jns | jo | jno => exact ⟨_, rfl⟩
  | _ => cases hi

/-- Settles O47: a compare takes a fault, which changes status alone, or writes N and Z and advances; a jump sets ip; HALT sets
status. -/
theorem frameOfComparesJumpsHalt : Obligations.FrameOfComparesJumpsHalt := by
  refine fun s t => ⟨fun r q i hmem hexec => ?compare, fun d i hmem hexec => ?jump, fun hexec => ?halt⟩
  case compare =>
    have hi : ∃ right, exec i s = compareWith r right s := by
      simp only [List.mem_cons, List.not_mem_nil, or_false] at hmem
      rcases hmem with rfl | rfl | rfl
      · exact ⟨reg s q, rfl⟩
      · exact ⟨.ok q, rfl⟩
      · exact ⟨memRead .data s (zext8 q), rfl⟩
    obtain ⟨right, hi⟩ := hi
    obtain ⟨e, hE⟩ | ⟨a, b, hE⟩ := compareWith_cases r right s <;> rw [hi, hE] at hexec <;> cases hexec
    · exact ⟨fun _ _ _ => rfl, fun _ => id, rfl, rfl, fun _ => rfl, rfl, .inr ⟨e, rfl⟩⟩
    · exact ⟨fun _ h4 h6 => cmpFlags_get_of_ne h4 h6 s.F, fun k => (cmpFlags_grow _ _ s.F k).1, rfl, rfl, fun _ => rfl, rfl,
        .inl rfl⟩
  case jump =>
    have hC : i.op.family = .C := by
      simp only [List.mem_cons, List.not_mem_nil, or_false] at hmem
      rcases hmem with rfl | rfl | rfl | rfl | rfl | rfl | rfl <;> rfl
    obtain ⟨a, hE⟩ := exec_jump_setIp hC s
    rw [hE] at hexec
    cases hexec
    exact ⟨rfl, rfl, rfl, fun _ => rfl, rfl, rfl⟩
  case halt =>
    cases hexec
    exact ⟨rfl, rfl, rfl, rfl, fun _ => rfl, rfl⟩

end Sys2Proof.Machine

/-! ## The stack, the E* family (45_stack.md R170-R172) -/

namespace Sys2Proof.Machine

section
variable {s t : State} {r q : RegId}

/-- PUSH and POP are two bytes long (45_stack.md R170, R171). -/
theorem State.advance_one (s : State) : s.advance 1 = s.setIp (s.ip + 2) :=
  congrArg s.setIp (Int.add_assoc s.ip 1 1)

/-- PUSH of a good id with sp inside the memory stores the register there (45_stack.md R170). -/
theorem exec_push_ok (hr : r.toNat < 4) (h0 : 0 ≤ s.sp) (h1 : s.sp < s.cfg.memSize) :
    exec (.push r) s = .next { s with
      mem := Memory.write s.cfg.imageFill s.mem s.sp.toNat s.x[r.toNat], sp := s.sp - 1, ip := s.ip + 2 } := by
  simp only [exec, execPush, reg_ok s r hr, memWrite_of_inRange .stack s s.sp _ h0 h1, settle_ok, State.advance_one]
  rfl

/-- PUSH of a good id with sp outside the memory takes the stack fault (45_stack.md R170). -/
theorem exec_push_outside (hr : r.toNat < 4) (h : s.sp < 0 ∨ (s.cfg.memSize : Int) ≤ s.sp) :
    Faults (.push r) s (.addressError .stack s.sp s.ip) := by
  simp only [Faults, exec, execPush, reg_ok s r hr, memWrite_of_outside .stack s s.sp _ h, settle_error]
  rfl

/-- POP to a good id loads the cell above sp (45_stack.md R171; D15). -/
theorem exec_pop_ok {v : Byte} (hr : r.toNat < 4) (hv : s.holds (s.sp + 1) v) :
    exec (.pop r) s = .next { s with x := s.x.set r.toNat v hr, sp := s.sp + 1, ip := s.ip + 2 } := by
  simp only [exec, execPop, regIndex_ok s r hr, memRead_of_holds .stack s _ v hv, settle_ok, State.advance_one]
  rfl

/-- POP to a good id from a cell that cannot be read takes the stack fault (45_stack.md R171; D14). -/
theorem exec_pop_unreadable (hr : r.toNat < 4) (h : s.unreadable (s.sp + 1)) :
    Faults (.pop r) s (.addressError .stack (s.sp + 1) s.ip) := by
  simp only [Faults, exec, execPop, regIndex_ok s r hr, memRead_of_unreadable .stack s _ h, settle_error]
  rfl

/-- Whatever PUSH does, it writes no cell but the one at sp. -/
theorem exec_push_cell_eq (h : exec (.push r) s = .next t) {b : Nat} (hb : (b : Int) ≠ s.sp) : t.cell b = s.cell b := by
  by_cases hr : r.toNat < 4
  · by_cases hsp : 0 ≤ s.sp ∧ s.sp < s.cfg.memSize
    · rw [exec_push_ok hr hsp.1 hsp.2] at h
      cases h
      exact Memory.read_write_other _ _ _ _ _ (by omega)
    · rw [exec_push_outside hr (by omega)] at h
      cases h
      rfl
  · rw [push_checks r s (by omega)] at h
    cases h
    rfl

/-- PUSH with sp inside the memory, as the stack sees it: the value stands in the cell that was the next free slot, and every
other cell holds what it held. -/
theorem exec_push_stack (hr : r.toNat < 4) (h0 : 0 ≤ s.sp) (h1 : s.sp < s.cfg.memSize) :
    ∃ t, exec (.push r) s = .next t ∧ t.x = s.x ∧ t.sp = s.sp - 1 ∧ t.cfg = s.cfg ∧ t.holds s.sp s.x[r.toNat] ∧
      ∀ a v, a ≠ s.sp → s.holds a v → t.holds a v := by
  have hexec := exec_push_ok hr h0 h1
  refine ⟨_, hexec, rfl, rfl, rfl, ⟨h0, h1, Memory.read_write_self _ _ _ _⟩, fun a v ha hv => ?_⟩
  obtain ⟨ha0, ha1, hcell⟩ := hv
  exact ⟨ha0, ha1, (exec_push_cell_eq hexec (by omega)).trans hcell⟩

/-- POP from a cell that holds `v`, as the stack sees it: the register holds `v`, sp moves up, every cell holds what it
held. -/
theorem exec_pop_stack {v : Byte} (hq : q.toNat < 4) (hv : s.holds (s.sp + 1) v) :
    ∃ t, exec (.pop q) s = .next t ∧ t.x = s.x.set q.toNat v hq ∧ t.sp = s.sp + 1 ∧
      ∀ a w, s.holds a w → t.holds a w :=
  ⟨_, exec_pop_ok hq hv, rfl, rfl, fun _ _ => id⟩

end

/-- Settles O41: the register check, and else the store at sp, inside the memory or outside it. -/
theorem pushRegister : Obligations.PushRegister := fun r s =>
  ⟨rfl, push_checks r s, fun hr => ⟨exec_push_ok hr, exec_push_outside hr⟩⟩

/-- Settles O42: the register check, and else the load from the cell above sp, readable or not. -/
theorem popRegister : Obligations.PopRegister := fun r s =>
  ⟨rfl, pop_checks r s, fun hr => ⟨fun _ => exec_pop_ok hr, exec_pop_unreadable hr⟩⟩

/-- Settles O48: the rows of E0 and E1 write no flag, E0's no register, E1's no memory; PUSH's one cell is the one at sp. -/
theorem frameOfStack : Obligations.FrameOfStack := by
  refine fun r s t => ⟨fun h => ?push, fun h => ?pop⟩ <;> have hE := exec_next_effect _ s t h
  case push =>
    exact ⟨fun _ => exec_push_cell_eq h, hE.x_eq_of_writesReg_none rfl, hE.F_eq rfl, hE.cfg_eq,
      hE.status_eq_or_faulted nofun⟩
  case pop =>
    refine ⟨fun k hk => hE.x_eq fun q hq => ?_, hE.F_eq rfl, hE.cell_eq ⟨nofun, nofun, nofun⟩, hE.cfg_eq,
      hE.status_eq_or_faulted nofun⟩
    cases hq
    exact hk.symm

/-- Settles O58: a pop reads the cell the matching push wrote; the inner push writes the cell below it, and the inner pop
writes none. -/
theorem pushThenPop : Obligations.PushThenPop := by
  refine ⟨fun s r q hr hq h0 h1 => ?one, fun s r r' q q' hr hr' hq hq' h0 h1 => ?two⟩
  case one =>
    obtain ⟨t, hpush, htx, htsp, -, hold, -⟩ := exec_push_stack hr h0 h1
    have hsp : t.sp + 1 = s.sp := by omega
    obtain ⟨u, hpop, hux, husp, hkeep⟩ := exec_pop_stack hq (hsp ▸ hold)
    exact ⟨t, u, hpush, hpop, htx ▸ hux, husp.trans hsp, hkeep _ _ hold⟩
  case two =>
    obtain ⟨t, hpush, htx, htsp, htcfg, hold, -⟩ := exec_push_stack hr (by omega) h1
    obtain ⟨u, hpush', hux, husp, -, hold', hother⟩ := exec_push_stack (s := t) hr' (by omega) (by rw [htcfg]; omega)
    have husp' : u.sp + 1 = t.sp := by omega
    obtain ⟨v, hpop, hvx, hvsp, hkeep⟩ := exec_pop_stack hq (husp' ▸ hold')
    have hvsp' : v.sp + 1 = s.sp := by omega
    have hv : v.holds s.sp s.x[r.toNat] := hkeep _ _ (hother _ _ (by omega) hold)
    obtain ⟨w, hpop', hwx, hwsp, -⟩ := exec_pop_stack hq' (hvsp' ▸ hv)
    refine ⟨t, u, v, w, hpush, hpush', hpop, hpop', ?_, hwsp.trans hvsp'⟩
    simp only [hwx, hvx, hux, htx]

end Sys2Proof.Machine

/-! ## The halt sentinel (46_halt.md R180) -/

namespace Sys2Proof.Machine

/-- HALT changes status alone; ip stays at its byte (46_halt.md R180; D21). -/
theorem exec_halt (s : State) : exec .halt s = .next (s.setStatus .halted) := rfl

/-- Only HALT halts: every other instruction leaves status or takes a fault. -/
theorem eq_halt_of_exec_halted {i : Instr} {s t : State} (hs : s.status ≠ .halted) (h : exec i s = .next t)
    (ht : t.status = .halted) : i = .halt := by
  by_contra hi
  obtain hst | ⟨e, he⟩ := (exec_next_effect i s t h).status_eq_or_faulted hi
  · exact hs (hst.symm.trans ht)
  · cases ht.symm.trans he

/-- Settles O16: a step that halts executed HALT, whose byte the fetch found at ip; a fault of the fetch is no halt. -/
theorem haltStaysAtItsByte : Obligations.HaltStaysAtItsByte := by
  intro s t hstep ht
  obtain ⟨hr, ⟨i, hfetch, hexec⟩ | ⟨e, -, rfl⟩⟩ := step_cases s t hstep
  · have hs : s.status ≠ .halted := by simp [hr]
    obtain rfl := eq_halt_of_exec_halted hs hexec ht
    rw [exec_halt] at hexec
    cases hexec
    exact ⟨fetchInstr_ok s .halt hfetch, rfl⟩
  · cases ht

/-- Settles O43: the encoding and the effect of HALT are its rows of the tables; from Halted the step is `step_halted`. -/
theorem haltInstruction : Obligations.HaltInstruction := fun s => ⟨rfl, exec_halt s, step_halted rfl⟩

end Sys2Proof.Machine

/-! ## Faults (60_exceptions.md R200-R204) -/

namespace Sys2Proof.Machine

/-- A fault of the fetch records the ip of the instruction being fetched (60_exceptions.md R202). -/
theorem State.fetchFault.ip_eq {s : State} {e : FaultCause} (h : s.fetchFault e) : e.ip = s.ip := by
  obtain ⟨_, rfl⟩ | ⟨_, rfl⟩ := h <;> rfl

/-- A step that faults records the ip of the instruction it fetched or executed (60_exceptions.md R202). -/
theorem ip_eq_of_step_faulted {s t : State} {e : FaultCause} (h : step s = .next t) (ht : t.status = .faulted e) :
    e.ip = s.ip := by
  obtain ⟨hr, ⟨i, -, hexec⟩ | ⟨e', hfetch, rfl⟩⟩ := step_cases s t h
  · obtain ⟨⟨-, hip, -⟩, -⟩ := (exec_next_effect i s t hexec).of_faulted (State.completed_of_running hr) ht
    exact hip
  · cases ht
    exact hfetch.ip_eq

/-- Settles O11: the effect of an instruction leaves status, halts or faults; a step that answers began Running, and
`step_running` says where it leads. -/
theorem everyInstructionExecutes : Obligations.EveryInstructionExecutes := by
  refine ⟨fun i s => ?exec, fun s t hstep hidle => ?step⟩
  case exec =>
    obtain ⟨t, hexec, hE⟩ := exec_effect i s
    refine ⟨t, hexec, ?_⟩
    obtain hs | hh | ⟨e, -, rfl⟩ := hE.status_cases
    · exact .inl hs
    · exact .inr (.inl hh)
    · exact .inr (.inr ⟨e, rfl⟩)
  case step =>
    obtain ⟨hr, -⟩ := step_cases s t hstep
    obtain ⟨u, hu, hstatus⟩ := step_running s hr
    cases hstep.symm.trans hu
    simp [hidle] at hstatus

/-- Settles O13: a fault changes status alone, and both the fetch and the instruction record the ip of the state. -/
theorem faultsArePrecise : Obligations.FaultsArePrecise := fun _ _ _ h ht =>
  ⟨step_eq_of_faulted h ht, ip_eq_of_step_faulted h ht⟩

/-- Settles O14: the fault an instruction takes is an `execFault`, whose first clause is the row of the table. -/
theorem faultsByInstruction : Obligations.FaultsByInstruction := by
  intro i s t e hs hexec ht
  obtain ⟨⟨hrow, -⟩, -⟩ := (exec_next_effect i s t hexec).of_faulted hs ht
  exact hrow

end Sys2Proof.Machine

/-! ## Reset and the host's operations keep the invariant (70_reset_and_hazards.md R230, 20_memory.md R58, R65) -/

namespace Sys2Proof.Machine

/-- Every legal memory has the first stack slot (10_state.md R35, 20_memory.md R50). -/
theorem resetSp_lt_memSize {c : Config} (h : c.wf = true) : resetSp < c.memSize := by
  simp only [Config.wf, Bool.and_eq_true, decide_eq_true_eq] at h
  obtain ⟨⟨hlow, _⟩, _⟩ := h
  simp only [resetSp]
  omega

/-- Flags and sp at their reset values meet their parts of the invariant under any legal configuration. -/
theorem State.inv_of_reset {s : State} (hc : s.cfg.wf = true) (hm : Memory.wf s.cfg.imageFill s.mem)
    (hw : Memory.within s.cfg.memSize s.mem) (hF : s.F = resetFlags) (hsp : s.sp = resetSp)
    (hr : s.faultRecordOk = true) : s.Inv where
  config := hc
  memory := hm
  cells := hw
  stackLow := by rw [hsp]; decide
  stackHigh := by rw [hsp]; exact Int.le_sub_one_of_lt (resetSp_lt_memSize hc)
  flags := by rw [State.unusedFlagsClear, hF]; decide
  record := hr

theorem State.construct_inv {c : Config} (hc : c.wf = true) : (State.construct c).Inv :=
  State.inv_of_reset hc (Memory.nil_wf _) nofun rfl rfl rfl

theorem State.Inv.beginRun {s : State} (hs : s.Inv) : s.beginRun.Inv :=
  State.inv_of_reset hs.config hs.memory hs.cells rfl rfl rfl

theorem State.Inv.load {s t : State} {image : List Byte} (hs : s.Inv) (h : s.load image = .next t) : t.Inv := by
  by_cases hfits : image.length ≤ s.cfg.memSize
  · rw [State.load_of_fits hfits] at h
    cases h
    exact { hs with
      memory := Memory.ofImage_wf _ _ _
      cells := fun c hc => by
        obtain ⟨_, hlt⟩ := Memory.ofImage_bounds _ _ _ c hc
        rw [Nat.zero_add] at hlt
        exact hlt.trans_le hfits
      record := rfl }
  · rw [State.load_of_tooLong (Nat.lt_of_not_le hfits)] at h
    cases h

/-- Settles O51: construct and the reset of run() put the reset values in place; load installs a canonical image that fits. -/
theorem hostKeepsInvariant : Obligations.HostKeepsInvariant :=
  ⟨fun _ => State.construct_inv, fun _ => State.Inv.beginRun, fun _ _ _ => State.Inv.load⟩

/-- Settles O50: State.reset is the state in which run() begins on a core just constructed with the default configuration. -/
theorem resetMeetsInvariant : Obligations.ResetMeetsInvariant :=
  (State.construct_inv (c := defaultConfig) (by decide)).beginRun

end Sys2Proof.Machine

/-! ## How a run ends (70_reset_and_hazards.md R234, 60_exceptions.md R210, R215)

A run that is seen to halt or to fault has taken its last step (`continueRun_last_step`), so more steps show the same end
(`continueRun_final`). The outcomes of a run without a STEP_LIMIT follow: two ends of one run are both seen by the larger
number of steps, and a run that no number of steps sees end is endless. -/

namespace Sys2Proof.Machine

/-- `r` is a run seen to halt or to fault. -/
abbrev RunEnd.Ended (r : RunEnd) : Prop := ∀ u, r ≠ .unfinished u

theorem RunEnd.halted_ended (t : State) : (RunEnd.halted t).Ended := by rintro _ ⟨⟩

theorem RunEnd.faulted_ended (e : FaultCause) (t : State) : (RunEnd.faulted e t).Ended := by rintro _ ⟨⟩

/-- `r` is how a run that stands in `t` has ended: the status of `t` says so. -/
inductive State.EndsAs (t : State) : RunEnd → Prop where
  | halted (h : t.status = .halted) : State.EndsAs t (.halted t)
  | faulted (e : FaultCause) (h : t.status = .faulted e) : State.EndsAs t (.faulted e t)

section
variable {n m : Nat} {s t u : State} {r : RunEnd} {o o' : RunOutcome}

theorem State.EndsAs.continueRun_eq (h : t.EndsAs r) (n : Nat) : State.continueRun n t = r := by
  cases h with
  | halted h => exact continueRun_halted n t h
  | faulted e h => exact continueRun_faulted n t e h

theorem continueRun_idle (n : Nat) (h : s.status = .idle) : State.continueRun n s = .unfinished s := by
  unfold State.continueRun
  rw [h]

/-- A run that a Running core began is Running where it is not seen to end. -/
theorem running_of_continueRun_unfinished (hs : s.status = .running) (h : State.continueRun n s = .unfinished t) :
    t.status = .running := by
  obtain ⟨u, hu, hr⟩ | ⟨_, _, _, _, _, _, _, ⟨_, hn⟩ | ⟨_, _, hn⟩⟩ := continueRun_cases n s hs
  · cases h.symm.trans hu
    exact hr
  · cases h.symm.trans hn
  · cases h.symm.trans hn

/-- A run goes on with the step from where it stands. -/
theorem continueRun_add_succ (hs : s.status = .running) (hu : State.continueRun n s = .unfinished u)
    (hstep : step u = .next t) (k : Nat) : State.continueRun (n + (k + 1)) s = State.continueRun k t := by
  rw [continueRun_add n (k + 1) s u hu hs,
    continueRun_succ k u t (running_of_continueRun_unfinished hs hu) hstep]

/-- The end of a run that a Running core began is where a step from a state of the run led. -/
theorem continueRun_last_step (hs : s.status = .running) (h : State.continueRun n s = r) (hr : r.Ended) :
    ∃ (m : Nat) (u t : State), m < n ∧ State.continueRun m s = .unfinished u ∧ u.status = .running ∧
      step u = .next t ∧ t.EndsAs r := by
  obtain ⟨u, hu, _⟩ | ⟨m, u, t, hm, hu, hur, hstep, hend⟩ := continueRun_cases n s hs
  · exact absurd (h.symm.trans hu) (hr u)
  · refine ⟨m, u, t, hm, hu, hur, hstep, ?_⟩
    obtain ⟨ht, hn⟩ | ⟨e, ht, hn⟩ := hend <;> obtain rfl := h.symm.trans hn
    · exact .halted ht
    · exact .faulted e ht

/-- A run seen to end shows it in its last state, and any higher limit sees the same end. -/
theorem continueRun_final (h : State.continueRun n s = r) (hr : r.Ended) :
    (∃ t : State, t.EndsAs r) ∧ ∀ k, State.continueRun (n + k) s = r := by
  have hended : ∀ r', s.EndsAs r' → (∃ t : State, t.EndsAs r) ∧ ∀ k, State.continueRun (n + k) s = r := fun r' hend => by
    obtain rfl := h.symm.trans (hend.continueRun_eq n)
    exact ⟨⟨s, hend⟩, fun k => hend.continueRun_eq (n + k)⟩
  cases hs : s.status with
  | idle => exact absurd (h.symm.trans (continueRun_idle n hs)) (hr s)
  | halted => exact hended _ (.halted hs)
  | faulted e => exact hended _ (.faulted e hs)
  | running =>
    obtain ⟨m, u, t, hm, hu, _, hstep, hend⟩ := continueRun_last_step hs h hr
    refine ⟨⟨t, hend⟩, fun k => ?_⟩
    obtain ⟨j, hj⟩ : ∃ j, n + k = m + (j + 1) := ⟨n + k - (m + 1), by omega⟩
    rw [hj, continueRun_add_succ hs hu hstep, hend.continueRun_eq]

/-- A run is seen to end in one way only, whatever the limits that see it end. -/
theorem continueRun_eq_of_ended (hn : (State.continueRun n s).Ended) (hm : (State.continueRun m s).Ended) :
    State.continueRun n s = State.continueRun m s := by
  have h1 := (continueRun_final rfl hn).2 m
  have h2 := (continueRun_final rfl hm).2 n
  rw [← h1, ← h2, Nat.add_comm]

theorem RunEnd.outcome_injective : Function.Injective RunEnd.outcome := by
  rintro (_ | _ | _) (_ | _ | _) h <;> cases h <;> rfl

theorem RunEnd.outcome_ne_endless (r : RunEnd) : r.outcome ≠ .endless := by
  cases r <;> nofun

/-- The outcomes of a run without a STEP_LIMIT: the end some number of steps sees, or endless. -/
theorem continuesTo_none_iff : State.continuesTo none s o ↔
    (o = .endless ∧ State.continuesTo none s .endless) ∨
    ∃ n, (State.continueRun n s).Ended ∧ (State.continueRun n s).outcome = o := by
  refine ⟨fun h => ?_, ?_⟩
  · cases o with
    | endless => exact .inl ⟨rfl, h⟩
    | cutShort => exact h.elim
    | halted t =>
      obtain ⟨n, hn⟩ := h
      exact .inr ⟨n, hn ▸ RunEnd.halted_ended t, congrArg RunEnd.outcome hn⟩
    | faulted e t =>
      obtain ⟨n, hn⟩ := h
      exact .inr ⟨n, hn ▸ RunEnd.faulted_ended e t, congrArg RunEnd.outcome hn⟩
  · rintro (⟨rfl, h⟩ | ⟨n, hn, rfl⟩)
    · exact h
    · cases hr : State.continueRun n s with
      | halted t | faulted e t => exact ⟨n, hr⟩
      | unfinished u => exact absurd hr (hn u)

theorem continuesTo_none_unique (ho : State.continuesTo none s o) (ho' : State.continuesTo none s o') : o' = o := by
  obtain ⟨rfl, hend⟩ | ⟨n, hn, rfl⟩ := continuesTo_none_iff.mp ho
  · exact eq_endless_of_continuesTo hend ho'
  · obtain ⟨rfl, hend⟩ | ⟨m, hm, rfl⟩ := continuesTo_none_iff.mp ho'
    · exact (eq_endless_of_continuesTo hend ho).symm
    · rw [continueRun_eq_of_ended hn hm]

/-- A run that a Running core began is endless or is seen to end. -/
theorem exists_continuesTo_none (hs : s.status = .running) : ∃ o, State.continuesTo none s o := by
  by_cases hend : ∀ n, ∃ t, State.continueRun n s = .unfinished t
  · exact ⟨.endless, fun n => (hend n).imp fun t ht => ⟨ht, running_of_continueRun_unfinished hs ht⟩⟩
  · push Not at hend
    obtain ⟨n, hn⟩ := hend
    exact ⟨_, continuesTo_none_iff.mpr (.inr ⟨n, hn, rfl⟩)⟩

/-- Where the run stands after one step more is where the step leads. -/
theorem step_of_continueRun_unfinished (hs : s.status = .running) (hu : State.continueRun n s = .unfinished u)
    (ht : State.continueRun (n + 1) s = .unfinished t) : step u = .next t := by
  obtain ⟨v, hv, hstatus⟩ := step_running u (running_of_continueRun_unfinished hs hu)
  rw [continueRun_add_succ hs hu hv 0] at ht
  obtain hr | hh | ⟨e, he⟩ := hstatus
  · cases ht.symm.trans (continueRun_zero v hr)
    exact hv
  · cases ht.symm.trans (continueRun_halted 0 v hh)
  · cases ht.symm.trans (continueRun_faulted 0 v e he)

/-- A run stands in the states of an infinite sequence of steps that leave status Running. -/
theorem continueRun_of_steps {f : Nat → State} (h0 : (f 0).status = .running)
    (hf : ∀ n, step (f n) = .next (f (n + 1)) ∧ (f (n + 1)).status = .running) (n : Nat) :
    State.continueRun n (f 0) = .unfinished (f n) := by
  induction n with
  | zero => exact continueRun_zero _ h0
  | succ n ih =>
    obtain ⟨hstep, hr⟩ := hf n
    rw [continueRun_add_succ h0 ih hstep 0, continueRun_zero _ hr]

/-- A run is endless exactly when its steps go on for ever, each leaving status Running (60_exceptions.md R215). -/
theorem continuesTo_endless_iff (hs : s.status = .running) : State.continuesTo none s .endless ↔
    ∃ f : Nat → State, f 0 = s ∧ ∀ n, step (f n) = .next (f (n + 1)) ∧ (f (n + 1)).status = .running := by
  refine ⟨fun hend => ?_, ?_⟩
  · choose f hrun hr using hend
    refine ⟨f, ?_, fun n => ⟨step_of_continueRun_unfinished hs (hrun n) (hrun (n + 1)), hr (n + 1)⟩⟩
    cases (hrun 0).symm.trans (continueRun_zero s hs)
    rfl
  · rintro ⟨f, rfl, hf⟩ n
    have hrun := continueRun_of_steps hs hf n
    exact ⟨f n, hrun, running_of_continueRun_unfinished hs hrun⟩

end

/-- Settles O19: `continueRun_final` for the runs that ended; under a STEP_LIMIT the outcome is what that many steps show. -/
theorem runEndsAreFinal : Obligations.RunEndsAreFinal := by
  refine ⟨fun n k s t => ⟨fun h => ?halted, fun e h => ?faulted⟩,
    fun n s t => ⟨fun h => ?limitHalted, fun e h => ?limitFaulted, fun h => ?limitCut, ?limitEndless⟩⟩
  case halted =>
    obtain ⟨⟨_, ⟨ht⟩⟩, hk⟩ := continueRun_final h (RunEnd.halted_ended t)
    exact ⟨ht, hk k⟩
  case faulted =>
    obtain ⟨⟨_, _ | ⟨_, ht⟩⟩, hk⟩ := continueRun_final h (RunEnd.faulted_ended e t)
    exact ⟨ht, hk k⟩
  case limitHalted | limitFaulted => exact ⟨n, RunEnd.outcome_injective h⟩
  case limitCut => exact running_of_continueRun_unfinished (beginRun_status s) (RunEnd.outcome_injective h)
  case limitEndless => exact RunEnd.outcome_ne_endless _

/-- Settles O20: one outcome exists and is unique; a run that ended took its last step from a state of the run, and that step
halted at a 00 or changed status alone. -/
theorem runEndsInExactlyOneWay : Obligations.RunEndsInExactlyOneWay := by
  intro s
  have hs := beginRun_status s
  refine ⟨?one, fun _ h => h, fun t h => ?halted, fun e t h => ?faulted, continuesTo_endless_iff hs⟩
  case one =>
    obtain ⟨o, ho⟩ := exists_continuesTo_none hs
    exact ⟨o, ho, fun _ => continuesTo_none_unique ho⟩
  case halted =>
    obtain ⟨n, hn⟩ := h
    obtain ⟨m, u, _, _, hu, hur, hstep, ⟨ht⟩⟩ := continueRun_last_step hs hn (RunEnd.halted_ended t)
    obtain ⟨hbyte, heq⟩ := haltStaysAtItsByte u t hstep ht
    exact ⟨m, u, hu, hur, hbyte, hstep, heq⟩
  case faulted =>
    obtain ⟨n, hn⟩ := h
    obtain ⟨m, u, _, _, hu, hur, hstep, _ | ⟨_, ht⟩⟩ := continueRun_last_step hs hn (RunEnd.faulted_ended e t)
    exact ⟨m, u, hu, hur, hstep, step_eq_of_faulted hstep ht⟩

end Sys2Proof.Machine
